-- ==== Sys2Proof/Word.lean ====
section
/-! DEFINITION. The widths of the machine: a word, an output character, a register number (R4, R52).
Addition on a `Word` is addition modulo 65536, `&&&` and `~~~` are bit by bit within 16 bits (R7). -/

namespace Sys2Proof

/-- A register, a memory word, an instruction or an address: 16 bits (R4, WORD). -/
abbrev Word := BitVec 16

/-- An output character, or one byte of an image file: 8 bits (R5, R181). -/
abbrev Byte := BitVec 8

/-- A register number: a 3-bit field of the instruction, 0 to 7 (R52). -/
abbrev Reg := BitVec 3

end Sys2Proof
end

