-- ==== Sys2Proof/Config.lean ====
section
/-! DEFINITION. The parameters of R4 that are values, and the trap vector numbers of R121. Nothing in the spec
lets one of them vary, and the spec leaves no value free, so no constant of this file is opaque.
UNVERIFIED (D24): the three addresses, notes/assumptions/17.md. -/

namespace Sys2Proof.Config

/-- PC_RESET: the value of pc after reset (R4, R19). -/
abbrev pcReset : Word := 0x3000#16

/-- KBSR_ADDR: the keyboard-status address, whose read clears the word (R4, R33). -/
abbrev kbsrAddr : Word := 0xFE00#16

/-- KBDR_ADDR: the keyboard-data address, which is ordinary memory (R4, R37). -/
abbrev kbdrAddr : Word := 0xFE02#16

/-- MEMWORDS: the number of addressable words (R4, R16). -/
abbrev memWords : Nat := 65536

/-- The link register: JSR and JSRR write the return address into `x[7]` (R11). -/
abbrev linkReg : Reg := 7#3

/-- The register PUTS takes its string address from, `x[0]` (R11, R125). -/
abbrev stringReg : Reg := 0#3

/-- The most reads one PUTS can make (R126). -/
def putsMaxReads : Nat := 131072

/-! The trap vectors of R121. UNVERIFIED (D8, G4): the spec takes the numbers from general knowledge
(notes/assumptions/5.md). -/

abbrev vecGetc : BitVec 8 := 0x20#8
abbrev vecOut : BitVec 8 := 0x21#8
abbrev vecPuts : BitVec 8 := 0x22#8
abbrev vecIn : BitVec 8 := 0x23#8
abbrev vecPutsp : BitVec 8 := 0x24#8
abbrev vecHalt : BitVec 8 := 0x25#8

end Sys2Proof.Config
end

