-- ==== Sys2Proof/Machine/State.lean ====
section
/-! DEFINITION. The machine's state as plain data, the reasons a step can stop, and the state after reset
(R10 to R19). -/

namespace Sys2Proof.Machine

/-- The kinds of a diagnostic event (R157). -/
inductive DiagKind where
  /-- Raised by RTI and RES. -/
  | unknownOpcode
  /-- Raised by GETC, OUT, IN and PUTSP. -/
  | unimplementedTrap
  /-- Raised by TRAP with a vector that has no routine. -/
  | unknownTrapVector
  deriving DecidableEq, Repr

/-- What the core shows at its ports, one event each (R18, R5). -/
inductive Event where
  /-- A memory read of address a returned v. -/
  | rd (a v : Word)
  /-- A memory write of v at address a. -/
  | wr (a v : Word)
  /-- The character c on the output port. -/
  | out (c : Byte)
  /-- A flush request on the output port. -/
  | flush
  /-- A diagnostic event of kind k for the instruction word w. -/
  | diag (k : DiagKind) (w : Word)
  deriving DecidableEq, Repr

/-- The memory array (R16): pairs of a word address and the 16-bit word it holds, in the canonical form of
`Memory.wf`; an address not listed holds `Memory.unlisted`. The unit is the machine's own, the 16-bit word: it has
no bytes and no byte order (R38, N26). DESIGN CHOICE (safe): notes/assumptions/1.md. -/
abbrev Memory := List (Nat × Word)

/-- Everything the spec gives the machine. -/
structure State where
  /-- The general registers `x[0]` to `x[7]` (R10). -/
  x       : Vector Word 8
  /-- The program counter, a word address (R12). -/
  pc      : Word
  /-- The condition flags: bit 2 N, bit 1 Z, bit 0 P (R13). -/
  cond    : BitVec 3
  /-- The running flag (R15). -/
  running : Bool
  /-- The memory array (R16). -/
  mem     : Memory
  /-- The events produced so far, oldest first: an observation no instruction reads (R18).
  DESIGN CHOICE (safe): it is kept in the state, notes/assumptions/2.md. -/
  trace   : List Event
  deriving DecidableEq, Repr

/-- The hardware never faults (R150). -/
inductive Fault where
  /-- The walk of PUTS made all the reads R126 allows and met no zero word: raised by `execPuts` alone and, by R126,
  in no state. Safe: a machine that stopped here would do less than the hardware
  (DESIGN CHOICE, notes/assumptions/10.md). -/
  | putsWalkExhausted
  deriving DecidableEq, Repr

/-- The hardware refuses no instruction (R56). -/
inductive Refusal where
  /-- An instruction without a meaning. Raised by nothing: every arm of `exec` has its meaning. Safe. -/
  | notModelled (mnemonic : String)
  deriving DecidableEq, Repr

/-- The state after reset (R19, R170): every register 0, pc 0x3000, cond ZERO, running, memory all zero (nothing
listed), the trace empty. -/
def State.reset : State where
  x       := Vector.replicate 8 0#16
  pc      := Config.pcReset
  cond    := 0b010#3
  running := true
  mem     := []
  trace   := []

end Sys2Proof.Machine
end

