-- ==== Sys2Proof/Machine/Ops.lean ====
section
/-! DEFINITION. The named operations over memory, registers, pc, the running flag and the event ports.
There is no operation that takes an exception and none that returns from one: the core raises no exception (R150),
TRAP saves nothing and goes nowhere (R154), RTI restores nothing (R155). -/

namespace Sys2Proof.Machine

/-! ## The memory array (R16, R30) -/

/-- What an address that is not listed holds: the reset value of every word (R19). -/
abbrev Memory.unlisted : Word := 0#16

/-- The stored word at an address, without any side effect. -/
def Memory.read : Memory → Nat → Word
  | [], _ => Memory.unlisted
  | c :: m, a => if c.1 = a then c.2 else Memory.read m a

/-- The memory without its entry for an address. -/
def Memory.remove (m : Memory) (a : Nat) : Memory := m.filter (fun c => c.1 != a)

/-- The memory with an entry placed before the first higher address. -/
def Memory.place : Memory → Nat → Word → Memory
  | [], a, v => [(a, v)]
  | c :: m, a, v => if a < c.1 then (a, v) :: c :: m else c :: Memory.place m a v

/-- The word v stored at an address; storing what an unlisted address holds removes the entry. -/
def Memory.write (m : Memory) (a : Nat) (v : Word) : Memory :=
  if v = Memory.unlisted then m.remove a else (m.remove a).place a v

/-- The canonical form: addresses strictly rising and inside the address space, no entry equal to an unlisted one. -/
abbrev Memory.wf (m : Memory) : Prop :=
  m.Pairwise (fun c d => c.1 < d.1) ∧ ∀ c ∈ m, c.1 < Config.memWords ∧ c.2 ≠ Memory.unlisted

/-! ## Registers and flags (R10 to R15) -/

/-- The value of `x[r]`. -/
def State.reg (s : State) (r : Reg) : Word := s.x[r.toNat]'r.isLt

/-- `x[r] <- v`. -/
def State.setReg (s : State) (r : Reg) (v : Word) : State := { s with x := s.x.set r.toNat v r.isLt }

/-- `pc <- target`. -/
def State.setPc (s : State) (target : Word) : State := { s with pc := target }

/-- `cond <- c`. -/
def State.setCond (s : State) (c : BitVec 3) : State := { s with cond := c }

/-- `running <- 0`, which only HALT does (R15, R129). -/
def State.clearRunning (s : State) : State := { s with running := false }

/-! ## Events (R18, R128, R156) -/

/-- Appends an event to the trace. -/
def State.emit (s : State) (e : Event) : State := { s with trace := s.trace ++ [e] }

/-- `diag K(w)`: a report that changes nothing else (R156). -/
def State.diag (s : State) (k : DiagKind) (w : Word) : State := s.emit (.diag k w)

/-- The code of a kind on `diag_kind` (R157). -/
def DiagKind.code : DiagKind → BitVec 2
  | .unknownOpcode => 0#2
  | .unimplementedTrap => 1#2
  | .unknownTrapVector => 2#2

/-! ## The memory interface (R30 to R35) -/

/-- `mem[a]`: the stored word itself, without any side effect (R7). -/
def State.peek (s : State) (a : Word) : Word := s.mem.read a.toNat

/-- The state after a read of address a: the read of the keyboard-status word clears it (R32, R33).
UNVERIFIED (D4): every read of the core has this effect, notes/assumptions/8.md. -/
def State.afterRead (s : State) (a : Word) : State :=
  { s with
    mem   := if a = Config.kbsrAddr then s.mem.write a.toNat 0#16 else s.mem
    trace := s.trace ++ [.rd a (s.peek a)] }

/-- `MemRead(a, 1)`: the word held before the access, and the state after it. -/
def State.memRead (s : State) (a : Word) : Word × State := (s.peek a, s.afterRead a)

/-- `MemWrite(a, 1, v)`: a store at any address, with no other effect (R34). -/
def State.memWrite (s : State) (a v : Word) : State :=
  { s with mem := s.mem.write a.toNat v, trace := s.trace ++ [.wr a v] }

/-! ## The fetch (R62) -/

/-- Reads the word at pc, then advances pc by 1 modulo 65536. -/
def State.fetch (s : State) : Word × State :=
  let r := s.memRead s.pc
  (r.1, r.2.setPc (s.pc + 1#16))

end Sys2Proof.Machine
end

