-- ==== Sys2Proof/Machine/Flags.lean ====
section
/-! DEFINITION. The condition flags: the one flag computation of the machine (R14) and the one write that applies it.
UNVERIFIED (D7, G3): which bit is which flag, notes/assumptions/4.md. -/

namespace Sys2Proof.Machine

/-- NEG, the N flag: bit 2 (R13). -/
abbrev flagNeg : BitVec 3 := 0b100#3

/-- ZERO, the Z flag: bit 1 (R13). -/
abbrev flagZero : BitVec 3 := 0b010#3

/-- POS, the P flag: bit 0 (R13). -/
abbrev flagPos : BitVec 3 := 0b001#3

/-- The flags of a value (R14). -/
def setcc (v : Word) : BitVec 3 :=
  if v = 0#16 then flagZero else if v.getLsbD 15 then flagNeg else flagPos

/-- Exactly one of the three flags is set (R13, R20). -/
abbrev oneFlag (c : BitVec 3) : Prop := c = flagNeg ∨ c = flagZero ∨ c = flagPos

/-- `x[dr] <- v` and then `setcc(v)`: what the seven register-defining instructions end with (R14, R87).
UNVERIFIED (D26): the order of effects, notes/assumptions/16.md. -/
def State.define (s : State) (dr : Reg) (v : Word) : State := (s.setReg dr v).setCond (setcc v)

end Sys2Proof.Machine
end

