-- ==== Sys2Proof/Machine/Operands.lean ====
section
/-! DEFINITION. The operand forms and addressing modes (R53, R107). In a meaning `pc` is already advanced: it holds
the instruction's address plus 1 (R12). -/

namespace Sys2Proof.Machine

/-- `sext_N`: replicates the field's top bit into all higher bits of the word (R7, R53).
UNVERIFIED (D11): also for LDI, ST, STI and STR, notes/assumptions/7.md. -/
def sext {n : Nat} (v : BitVec n) : Word := v.signExtend 16

/-- PC-relative: the already-advanced pc plus a sign-extended offset, modulo 65536 (BR, JSR, LD, LDI, LEA, ST, STI). -/
def State.pcRelative {n : Nat} (s : State) (off : BitVec n) : Word := s.pc + sext off

/-- Base plus offset: a register plus a sign-extended offset, modulo 65536 (LDR, STR). -/
def State.basePlus (s : State) (base : Reg) (off6 : BitVec 6) : Word := s.reg base + sext off6

/-- The character of a word of a string: its bits 7 to 0 (R125). -/
def charOf (w : Word) : Byte := w.extractLsb' 0 8

end Sys2Proof.Machine
end

