-- ==== Sys2Proof/Machine/Alu.lean ====
section
/-! DEFINITION. ADD, AND and NOT (R80 to R87). The ALU has these three functions and no other: no shift, no carry, no
overflow (R80, C5). -/

namespace Sys2Proof.Machine

open Host (Outcome)

/-- The ALU's addition, modulo 65536 (R80, R86). -/
def aluAdd (a b : Word) : Word := a + b

/-- The ALU's bit by bit AND (R80). -/
def aluAnd (a b : Word) : Word := a &&& b

/-- The ALU's complement (R80). -/
def aluNot (a : Word) : Word := ~~~a

/-- ADD, register form (R81). -/
def execAddReg (dr sr1 sr2 : Reg) (s : State) : Outcome State Fault Refusal :=
  .next (s.define dr (aluAdd (s.reg sr1) (s.reg sr2)))

/-- ADD, immediate form (R82). -/
def execAddImm (dr sr1 : Reg) (imm5 : BitVec 5) (s : State) : Outcome State Fault Refusal :=
  .next (s.define dr (aluAdd (s.reg sr1) (sext imm5)))

/-- AND, register form (R83). -/
def execAndReg (dr sr1 sr2 : Reg) (s : State) : Outcome State Fault Refusal :=
  .next (s.define dr (aluAnd (s.reg sr1) (s.reg sr2)))

/-- AND, immediate form: the immediate is sign-extended before the AND (R84). -/
def execAndImm (dr sr1 : Reg) (imm5 : BitVec 5) (s : State) : Outcome State Fault Refusal :=
  .next (s.define dr (aluAnd (s.reg sr1) (sext imm5)))

/-- NOT (R85). -/
def execNotReg (dr sr : Reg) (s : State) : Outcome State Fault Refusal :=
  .next (s.define dr (aluNot (s.reg sr)))

end Sys2Proof.Machine
end

