-- ==== Sys2Proof/Machine/Control.lean ====
section
/-! DEFINITION. BR, JMP, JSR and JSRR (R90 to R95). None of them writes the flags. -/

namespace Sys2Proof.Machine

open Host (Outcome)

/-- BR: taken when the mask and the flags share a bit (R90). -/
def execBr (mask : BitVec 3) (off9 : BitVec 9) (s : State) : Outcome State Fault Refusal :=
  .next (if mask &&& s.cond ≠ 0#3 then s.setPc (s.pcRelative off9) else s)

/-- JMP (R92). -/
def execJmp (base : Reg) (s : State) : Outcome State Fault Refusal :=
  .next (s.setPc (s.reg base))

/-- `x[7] <- pc`: the return address, without a flag update (R93, R94, C2). -/
def State.link (s : State) : State := s.setReg Config.linkReg s.pc

/-- JSR (R93). -/
def execJsr (off11 : BitVec 11) (s : State) : Outcome State Fault Refusal :=
  .next (s.link.setPc (s.pcRelative off11))

/-- JSRR: the base register is read AFTER the write of `x[7]`, so JSRR R7 falls through (R94).
UNVERIFIED (D25): the order, notes/assumptions/11.md. -/
def execJsrr (base : Reg) (s : State) : Outcome State Fault Refusal :=
  .next (s.link.setPc (s.link.reg base))

end Sys2Proof.Machine
end

