-- ==== Sys2Proof/Machine/LoadStore.lean ====
section
/-! DEFINITION. LD, LDI, LDR, LEA, ST, STI and STR (R100 to R107). -/

namespace Sys2Proof.Machine

open Host (Outcome)

/-- Reads the word at an address into a register and sets the flags from it: the end of LD, LDI and LDR. -/
def State.loadInto (s : State) (dr : Reg) (a : Word) : State :=
  let r := s.memRead a
  r.2.define dr r.1

/-- LD (R100). -/
def execLd (dr : Reg) (off9 : BitVec 9) (s : State) : Outcome State Fault Refusal :=
  .next (s.loadInto dr (s.pcRelative off9))

/-- LDI: the pointer is read first, then the data (R101). -/
def execLdi (dr : Reg) (off9 : BitVec 9) (s : State) : Outcome State Fault Refusal :=
  let p := s.memRead (s.pcRelative off9)
  .next (p.2.loadInto dr p.1)

/-- LDR (R102). -/
def execLdr (dr base : Reg) (off6 : BitVec 6) (s : State) : Outcome State Fault Refusal :=
  .next (s.loadInto dr (s.basePlus base off6))

/-- LEA: the address itself, with a flag update and without an access (R103). -/
def execLea (dr : Reg) (off9 : BitVec 9) (s : State) : Outcome State Fault Refusal :=
  .next (s.define dr (s.pcRelative off9))

/-- ST (R104). -/
def execSt (sr : Reg) (off9 : BitVec 9) (s : State) : Outcome State Fault Refusal :=
  .next (s.memWrite (s.pcRelative off9) (s.reg sr))

/-- STI: the pointer is read, then the word is stored where it points (R105). -/
def execSti (sr : Reg) (off9 : BitVec 9) (s : State) : Outcome State Fault Refusal :=
  let p := s.memRead (s.pcRelative off9)
  .next (p.2.memWrite p.1 (s.reg sr))

/-- STR (R106). -/
def execStr (sr base : Reg) (off6 : BitVec 6) (s : State) : Outcome State Fault Refusal :=
  .next (s.memWrite (s.basePlus base off6) (s.reg sr))

end Sys2Proof.Machine
end

