-- ==== Sys2Proof/Syntax.lean ====
section
/-! DEFINITION. The instructions: one constructor for each of the 25 rows of spec/opcode_table.json.
A constructor carries every field its format has (R51), the bits marked "ign" among them: no handler reads those
(R55), but the diagnostic events report the whole instruction word (R157), and a decoder that keeps them loses no
bit of a word. -/

namespace Sys2Proof

inductive Instr where
  /-- BR: the mask n, z, p of bits 11 to 9 and PCoffset9 (R90). -/
  | br (mask : BitVec 3) (off9 : BitVec 9)
  /-- ADD, register form (R81). -/
  | addReg (dr sr1 : Reg) (ign : BitVec 2) (sr2 : Reg)
  /-- ADD, immediate form (R82). -/
  | addImm (dr sr1 : Reg) (imm5 : BitVec 5)
  /-- LD (R100). -/
  | ld (dr : Reg) (off9 : BitVec 9)
  /-- ST (R104). -/
  | st (sr : Reg) (off9 : BitVec 9)
  /-- JSR: opcode 0100 with the long flag (R93). -/
  | jsr (off11 : BitVec 11)
  /-- JSRR: opcode 0100 without the long flag (R94). -/
  | jsrr (ignHi : BitVec 2) (base : Reg) (ignLo : BitVec 6)
  /-- AND, register form (R83). -/
  | andReg (dr sr1 : Reg) (ign : BitVec 2) (sr2 : Reg)
  /-- AND, immediate form (R84). -/
  | andImm (dr sr1 : Reg) (imm5 : BitVec 5)
  /-- LDR (R102). -/
  | ldr (dr base : Reg) (off6 : BitVec 6)
  /-- STR (R106). -/
  | str (sr base : Reg) (off6 : BitVec 6)
  /-- RTI, a no-operation on this hardware (R140). -/
  | rti (ign : BitVec 12)
  /-- NOT (R85). -/
  | notReg (dr sr : Reg) (ign : BitVec 6)
  /-- LDI (R101). -/
  | ldi (dr : Reg) (off9 : BitVec 9)
  /-- STI (R105). -/
  | sti (sr : Reg) (off9 : BitVec 9)
  /-- JMP; RET is JMP R7 (R92, R65). -/
  | jmp (ignHi : BitVec 3) (base : Reg) (ignLo : BitVec 6)
  /-- RES, the reserved opcode 1101 (R141). -/
  | res (ign : BitVec 12)
  /-- LEA (R103). -/
  | lea (dr : Reg) (off9 : BitVec 9)
  /-- TRAP x20, GETC (R122). -/
  | getc (ign : BitVec 4)
  /-- TRAP x21, OUT (R123). -/
  | out (ign : BitVec 4)
  /-- TRAP x22, PUTS (R125). -/
  | puts (ign : BitVec 4)
  /-- TRAP x23, IN (R124). -/
  | inp (ign : BitVec 4)
  /-- TRAP x24, PUTSP (R127). -/
  | putsp (ign : BitVec 4)
  /-- TRAP x25, HALT (R129). -/
  | halt (ign : BitVec 4)
  /-- TRAP with a vector that has no routine (R130). -/
  | trap (ign : BitVec 4) (vect : BitVec 8)
  deriving DecidableEq, Repr

end Sys2Proof
end

