-- ==== Sys2Proof/WellFormed.lean ====
section
/-! DEFINITION. Which terms of `Instr` stand for an instruction word. Every field has exactly the width of its bits
(R51), so one check is left: the row for the vectors without a routine is tried after the six named rows (R57,
R121, R130), so it holds none of their vectors. -/

namespace Sys2Proof

/-- The six vectors that have a routine (R121). -/
def isNamedVector (v : BitVec 8) : Bool :=
  v == Config.vecGetc || v == Config.vecOut || v == Config.vecPuts ||
    v == Config.vecIn || v == Config.vecPutsp || v == Config.vecHalt

def Instr.wellFormed : Instr → Bool
  | .br _ _ => true
  | .addReg _ _ _ _ => true
  | .addImm _ _ _ => true
  | .ld _ _ => true
  | .st _ _ => true
  | .jsr _ => true
  | .jsrr _ _ _ => true
  | .andReg _ _ _ _ => true
  | .andImm _ _ _ => true
  | .ldr _ _ _ => true
  | .str _ _ _ => true
  | .rti _ => true
  | .notReg _ _ _ => true
  | .ldi _ _ => true
  | .sti _ _ => true
  | .jmp _ _ _ => true
  | .res _ => true
  | .lea _ _ => true
  | .getc _ => true
  | .out _ => true
  | .puts _ => true
  | .inp _ => true
  | .putsp _ => true
  | .halt _ => true
  | .trap _ vect => !isNamedVector vect

end Sys2Proof
end

