-- ==== Sys2Proof/Decode.lean ====
section
/-! DEFINITION. The decoder, total on the 65536 words (R56, R57, R63), the encoder, the opcode table as data, and the
canonical words of R64 and R65. A word is decoded whole: the core has no byte order (R38).
UNVERIFIED (D5, D6, G1, G2): the spec takes the opcode numbers and most field positions from general knowledge
(notes/assumptions/3.md). -/

namespace Sys2Proof

/-! ## Fields of an instruction word (R50, R52, R53, R63) -/

/-- The opcode, bits 15 to 12. -/
def opcodeField (w : Word) : BitVec 4 := w.extractLsb' 12 4

/-- Bits 11 to 9: DR; SR of ST, STI and STR; the mask of BR. -/
def hiField (w : Word) : BitVec 3 := w.extractLsb' 9 3

/-- Bits 8 to 6: SR1, SR, BaseR. -/
def midField (w : Word) : BitVec 3 := w.extractLsb' 6 3

/-- Bits 2 to 0: SR2. -/
def loField (w : Word) : BitVec 3 := w.extractLsb' 0 3

/-- Bit 5 of ADD and AND, the immediate-mode bit (R54). -/
def modeBit (w : Word) : Bool := w.getLsbD 5

/-- Bit 11 of opcode 0100, the long flag (R54). -/
def longFlag (w : Word) : Bool := w.getLsbD 11

def imm5Field (w : Word) : BitVec 5 := w.extractLsb' 0 5
def off6Field (w : Word) : BitVec 6 := w.extractLsb' 0 6
def off9Field (w : Word) : BitVec 9 := w.extractLsb' 0 9
def off11Field (w : Word) : BitVec 11 := w.extractLsb' 0 11
def trapField (w : Word) : BitVec 8 := w.extractLsb' 0 8

/-! The ignored bits (R55): 4 to 3, 10 to 9, 11 to 8 and 11 to 0 (5 to 0 is `off6Field`, 11 to 9 is `hiField`). -/

def ign43 (w : Word) : BitVec 2 := w.extractLsb' 3 2
def ign109 (w : Word) : BitVec 2 := w.extractLsb' 9 2
def ign118 (w : Word) : BitVec 4 := w.extractLsb' 8 4
def ign110 (w : Word) : BitVec 12 := w.extractLsb' 0 12

/-! ## The decoder -/

/-- Within opcode 1111 the vector selects the routine; a vector without one is a row of its own (R121, R130). -/
def decodeTrap (w : Word) : Instr :=
  let v := trapField w
  if v = Config.vecGetc then .getc (ign118 w)
  else if v = Config.vecOut then .out (ign118 w)
  else if v = Config.vecPuts then .puts (ign118 w)
  else if v = Config.vecIn then .inp (ign118 w)
  else if v = Config.vecPutsp then .putsp (ign118 w)
  else if v = Config.vecHalt then .halt (ign118 w)
  else .trap (ign118 w) v

/-- The opcode map of R57: bits 15 to 12, then bit 5 for ADD and AND, bit 11 for JSR and JSRR, the vector for TRAP.
The opcodes 0000 to 1110 are tested in turn and 1111 is what is left. -/
def decode (w : Word) : Instr :=
  let op := opcodeField w
  if op = 0x0#4 then .br (hiField w) (off9Field w)
  else if op = 0x1#4 then
    if modeBit w then .addImm (hiField w) (midField w) (imm5Field w)
    else .addReg (hiField w) (midField w) (ign43 w) (loField w)
  else if op = 0x2#4 then .ld (hiField w) (off9Field w)
  else if op = 0x3#4 then .st (hiField w) (off9Field w)
  else if op = 0x4#4 then
    if longFlag w then .jsr (off11Field w)
    else .jsrr (ign109 w) (midField w) (off6Field w)
  else if op = 0x5#4 then
    if modeBit w then .andImm (hiField w) (midField w) (imm5Field w)
    else .andReg (hiField w) (midField w) (ign43 w) (loField w)
  else if op = 0x6#4 then .ldr (hiField w) (midField w) (off6Field w)
  else if op = 0x7#4 then .str (hiField w) (midField w) (off6Field w)
  else if op = 0x8#4 then .rti (ign110 w)
  else if op = 0x9#4 then .notReg (hiField w) (midField w) (off6Field w)
  else if op = 0xA#4 then .ldi (hiField w) (off9Field w)
  else if op = 0xB#4 then .sti (hiField w) (off9Field w)
  else if op = 0xC#4 then .jmp (hiField w) (midField w) (off6Field w)
  else if op = 0xD#4 then .res (ign110 w)
  else if op = 0xE#4 then .lea (hiField w) (off9Field w)
  else decodeTrap w

/-- The decoder on an instruction as spec/opcode_table.json numbers its bits: one word, never more (R50). -/
def decodeTableWord (nbits w : Nat) : Option Instr :=
  if nbits ≤ 16 then some (decode (BitVec.ofNat 16 (w % 2 ^ nbits))) else none

/-! ## The encoder -/

/-- The word of an instruction, field by field from bit 15 down to bit 0 as the formats of R51 list them. -/
def encode : Instr → Word
  | .br mask off9 => 0x0#4 ++ mask ++ off9
  | .addReg dr sr1 ign sr2 => 0x1#4 ++ dr ++ sr1 ++ 0#1 ++ ign ++ sr2
  | .addImm dr sr1 imm5 => 0x1#4 ++ dr ++ sr1 ++ 1#1 ++ imm5
  | .ld dr off9 => 0x2#4 ++ dr ++ off9
  | .st sr off9 => 0x3#4 ++ sr ++ off9
  | .jsr off11 => 0x4#4 ++ 1#1 ++ off11
  | .jsrr ignHi base ignLo => 0x4#4 ++ 0#1 ++ ignHi ++ base ++ ignLo
  | .andReg dr sr1 ign sr2 => 0x5#4 ++ dr ++ sr1 ++ 0#1 ++ ign ++ sr2
  | .andImm dr sr1 imm5 => 0x5#4 ++ dr ++ sr1 ++ 1#1 ++ imm5
  | .ldr dr base off6 => 0x6#4 ++ dr ++ base ++ off6
  | .str sr base off6 => 0x7#4 ++ sr ++ base ++ off6
  | .rti ign => 0x8#4 ++ ign
  | .notReg dr sr ign => 0x9#4 ++ dr ++ sr ++ ign
  | .ldi dr off9 => 0xA#4 ++ dr ++ off9
  | .sti sr off9 => 0xB#4 ++ sr ++ off9
  | .jmp ignHi base ignLo => 0xC#4 ++ ignHi ++ base ++ ignLo
  | .res ign => 0xD#4 ++ ign
  | .lea dr off9 => 0xE#4 ++ dr ++ off9
  | .getc ign => 0xF#4 ++ ign ++ Config.vecGetc
  | .out ign => 0xF#4 ++ ign ++ Config.vecOut
  | .puts ign => 0xF#4 ++ ign ++ Config.vecPuts
  | .inp ign => 0xF#4 ++ ign ++ Config.vecIn
  | .putsp ign => 0xF#4 ++ ign ++ Config.vecPutsp
  | .halt ign => 0xF#4 ++ ign ++ Config.vecHalt
  | .trap ign vect => 0xF#4 ++ ign ++ vect

/-! ## The opcode table -/

/-- A row of spec/opcode_table.json: it takes the words w with `w &&& mask = pattern`. -/
structure TableRow where
  mnemonic : String
  mask     : Word
  pattern  : Word
  deriving DecidableEq, Repr

/-- The rows in file order; the first that takes a word wins (R57). -/
def opcodeTable : List TableRow :=
  [⟨"BR", 0xF000#16, 0x0000#16⟩, ⟨"ADD", 0xF020#16, 0x1000#16⟩, ⟨"ADD", 0xF020#16, 0x1020#16⟩,
   ⟨"LD", 0xF000#16, 0x2000#16⟩, ⟨"ST", 0xF000#16, 0x3000#16⟩, ⟨"JSR", 0xF800#16, 0x4800#16⟩,
   ⟨"JSRR", 0xF800#16, 0x4000#16⟩, ⟨"AND", 0xF020#16, 0x5000#16⟩, ⟨"AND", 0xF020#16, 0x5020#16⟩,
   ⟨"LDR", 0xF000#16, 0x6000#16⟩, ⟨"STR", 0xF000#16, 0x7000#16⟩, ⟨"RTI", 0xF000#16, 0x8000#16⟩,
   ⟨"NOT", 0xF000#16, 0x9000#16⟩] ++
  [⟨"LDI", 0xF000#16, 0xA000#16⟩, ⟨"STI", 0xF000#16, 0xB000#16⟩, ⟨"JMP", 0xF000#16, 0xC000#16⟩,
   ⟨"RES", 0xF000#16, 0xD000#16⟩, ⟨"LEA", 0xF000#16, 0xE000#16⟩, ⟨"GETC", 0xF0FF#16, 0xF020#16⟩,
   ⟨"OUT", 0xF0FF#16, 0xF021#16⟩, ⟨"PUTS", 0xF0FF#16, 0xF022#16⟩, ⟨"IN", 0xF0FF#16, 0xF023#16⟩,
   ⟨"PUTSP", 0xF0FF#16, 0xF024#16⟩, ⟨"HALT", 0xF0FF#16, 0xF025#16⟩, ⟨"TRAP", 0xF000#16, 0xF000#16⟩]

/-- Whether a row takes a word. -/
def TableRow.takes (r : TableRow) (w : Word) : Bool := w &&& r.mask == r.pattern

/-- The number of the first row that takes a word. -/
def firstRow (w : Word) : Option Nat := opcodeTable.findIdx? (fun r => r.takes w)

/-- The number, in `opcodeTable`, of an instruction's row. -/
def Instr.row : Instr → Nat
  | .br _ _ => 0
  | .addReg _ _ _ _ => 1
  | .addImm _ _ _ => 2
  | .ld _ _ => 3
  | .st _ _ => 4
  | .jsr _ => 5
  | .jsrr _ _ _ => 6
  | .andReg _ _ _ _ => 7
  | .andImm _ _ _ => 8
  | .ldr _ _ _ => 9
  | .str _ _ _ => 10
  | .rti _ => 11
  | .notReg _ _ _ => 12
  | .ldi _ _ => 13
  | .sti _ _ => 14
  | .jmp _ _ _ => 15
  | .res _ => 16
  | .lea _ _ => 17
  | .getc _ => 18
  | .out _ => 19
  | .puts _ => 20
  | .inp _ => 21
  | .putsp _ => 22
  | .halt _ => 23
  | .trap _ _ => 24

/-! ## The assembler's words (R64, R65) -/

/-- The instruction with every ignored bit at its "canon" value of R51, the word the notation of R64 stands for. -/
def Instr.canonical : Instr → Instr
  | .br mask off9 => .br mask off9
  | .addReg dr sr1 _ sr2 => .addReg dr sr1 0 sr2
  | .addImm dr sr1 imm5 => .addImm dr sr1 imm5
  | .ld dr off9 => .ld dr off9
  | .st sr off9 => .st sr off9
  | .jsr off11 => .jsr off11
  | .jsrr _ base _ => .jsrr 0 base 0
  | .andReg dr sr1 _ sr2 => .andReg dr sr1 0 sr2
  | .andImm dr sr1 imm5 => .andImm dr sr1 imm5
  | .ldr dr base off6 => .ldr dr base off6
  | .str sr base off6 => .str sr base off6
  | .rti _ => .rti 0
  | .notReg dr sr _ => .notReg dr sr (BitVec.allOnes 6)
  | .ldi dr off9 => .ldi dr off9
  | .sti sr off9 => .sti sr off9
  | .jmp _ base _ => .jmp 0 base 0
  | .res _ => .res 0
  | .lea dr off9 => .lea dr off9
  | .getc _ => .getc 0
  | .out _ => .out 0
  | .puts _ => .puts 0
  | .inp _ => .inp 0
  | .putsp _ => .putsp 0
  | .halt _ => .halt 0
  | .trap _ vect => .trap 0 vect

/-- The pseudo-instruction RET: JMP R7 (R65). -/
def Instr.ret : Instr := .jmp 0 Config.linkReg 0

/-- The pseudo-instruction NOP: BR with mask 000 and offset 0 (R65). -/
def Instr.nop : Instr := .br 0 0

end Sys2Proof
end

