-- ==== Sys2Proof/Machine/Reserved.lean ====
section
/-! DEFINITION. RTI and RES, the two opcodes without a handler: no-operations with a diagnostic event (R140 to R142). -/

namespace Sys2Proof.Machine

open Host (Outcome)

/-- RTI: returns from nothing, restores nothing (R140). -/
def execRti (ign : BitVec 12) (s : State) : Outcome State Fault Refusal :=
  .next (s.diag .unknownOpcode (encode (.rti ign)))

/-- RES (R141). -/
def execRes (ign : BitVec 12) (s : State) : Outcome State Fault Refusal :=
  .next (s.diag .unknownOpcode (encode (.res ign)))

end Sys2Proof.Machine
end

