-- ==== Sys2Proof/Machine/Trap.lean ====
section
/-! DEFINITION. TRAP and its fixed routine table (R120 to R131). A routine is a function of the hardware inside the one
instruction: no TRAP writes a register, the flags or pc (R131; UNVERIFIED, D12, notes/assumptions/9.md).
A diagnostic event reports the whole instruction word, ignored bits included (R157). -/

namespace Sys2Proof.Machine

open Host (Outcome)

/-- GETC: reads no character, loads no register, does not wait (R122). -/
def execGetc (ign : BitVec 4) (s : State) : Outcome State Fault Refusal :=
  .next (s.diag .unimplementedTrap (encode (.getc ign)))

/-- OUT: emits no character (R123). -/
def execOut (ign : BitVec 4) (s : State) : Outcome State Fault Refusal :=
  .next (s.diag .unimplementedTrap (encode (.out ign)))

/-- IN (R124). -/
def execInp (ign : BitVec 4) (s : State) : Outcome State Fault Refusal :=
  .next (s.diag .unimplementedTrap (encode (.inp ign)))

/-- PUTSP (R127). -/
def execPutsp (ign : BitVec 4) (s : State) : Outcome State Fault Refusal :=
  .next (s.diag .unimplementedTrap (encode (.putsp ign)))

/-- The loop of PUTS (R125): reads word after word from an address on, modulo 65536, and emits the low byte of each,
up to and including the first read that returns zero. The first argument bounds the reads; `none` says that the
bound was reached. -/
def putsWalk : Nat → Word → State → Option State
  | 0, _, _ => none
  | reads + 1, a, s =>
    let r := s.memRead a
    if r.1 = 0#16 then some r.2 else putsWalk reads (a + 1#16) (r.2.emit (.out (charOf r.1)))

/-- PUTS: the string at `x[0]`, then one flush (R125). UNVERIFIED (D14): the details, notes/assumptions/10.md. -/
def execPuts (s : State) : Outcome State Fault Refusal :=
  match putsWalk Config.putsMaxReads (s.reg Config.stringReg) s with
  | some t => .next (t.emit .flush)
  | none => .fault .putsWalkExhausted

/-- HALT: clears `running` and does nothing else (R129). UNVERIFIED (D13): notes/assumptions/9.md. -/
def execHalt (s : State) : Outcome State Fault Refusal :=
  .next s.clearRunning

/-- TRAP with a vector that has no routine (R130). UNVERIFIED (D9): notes/assumptions/5.md. DESIGN CHOICE (safe): a term
with a named vector, which no word decodes to, is answered alike, notes/assumptions/18.md. -/
def execTrap (ign : BitVec 4) (vect : BitVec 8) (s : State) : Outcome State Fault Refusal :=
  .next (s.diag .unknownTrapVector (encode (.trap ign vect)))

end Sys2Proof.Machine
end

