-- ==== Sys2Proof/Machine/Dispatch.lean ====
section
/-! DEFINITION. One arm per instruction (R57). The state is the one after the fetch: pc is already advanced (R62).
Ignored bits go to a meaning only where a diagnostic event reports them (R55, R157). -/

namespace Sys2Proof.Machine

def exec (i : Instr) (s : State) : Host.Outcome State Fault Refusal :=
  match i with
  | .br mask off9 => Sys2Proof.Machine.execBr mask off9 s
  | .addReg dr sr1 _ sr2 => Sys2Proof.Machine.execAddReg dr sr1 sr2 s
  | .addImm dr sr1 imm5 => Sys2Proof.Machine.execAddImm dr sr1 imm5 s
  | .ld dr off9 => Sys2Proof.Machine.execLd dr off9 s
  | .st sr off9 => Sys2Proof.Machine.execSt sr off9 s
  | .jsr off11 => Sys2Proof.Machine.execJsr off11 s
  | .jsrr _ base _ => Sys2Proof.Machine.execJsrr base s
  | .andReg dr sr1 _ sr2 => Sys2Proof.Machine.execAndReg dr sr1 sr2 s
  | .andImm dr sr1 imm5 => Sys2Proof.Machine.execAndImm dr sr1 imm5 s
  | .ldr dr base off6 => Sys2Proof.Machine.execLdr dr base off6 s
  | .str sr base off6 => Sys2Proof.Machine.execStr sr base off6 s
  | .rti ign => Sys2Proof.Machine.execRti ign s
  | .notReg dr sr _ => Sys2Proof.Machine.execNotReg dr sr s
  | .ldi dr off9 => Sys2Proof.Machine.execLdi dr off9 s
  | .sti sr off9 => Sys2Proof.Machine.execSti sr off9 s
  | .jmp _ base _ => Sys2Proof.Machine.execJmp base s
  | .res ign => Sys2Proof.Machine.execRes ign s
  | .lea dr off9 => Sys2Proof.Machine.execLea dr off9 s
  | .getc ign => Sys2Proof.Machine.execGetc ign s
  | .out ign => Sys2Proof.Machine.execOut ign s
  | .puts _ => Sys2Proof.Machine.execPuts s
  | .inp ign => Sys2Proof.Machine.execInp ign s
  | .putsp ign => Sys2Proof.Machine.execPutsp ign s
  | .halt _ => Sys2Proof.Machine.execHalt s
  | .trap ign vect => Sys2Proof.Machine.execTrap ign vect s

end Sys2Proof.Machine
end

