-- ==== Sys2Proof/Machine/Step.lean ====
section
/-! DEFINITION. One step request (R62, R175, R176), and the host's way to place an instruction. -/

namespace Sys2Proof.Machine

/-- A step request while `running` fetches, advances pc, decodes and executes one instruction; while halted it does
nothing, not even a fetch (R176; UNVERIFIED, D21, notes/assumptions/12.md). -/
def step (s : State) : Host.Outcome State Fault Refusal :=
  if s.running then
    let f := s.fetch
    exec (decode f.1) f.2
  else .next s

/-- s with an instruction word where the next step fetches, and running, without which no step fetches: a tool for
placing an instruction, no action of the hardware (notes/assumptions/14.md). -/
def State.withFetchWord (s : State) (nbits w : Nat) : State :=
  { s with mem := s.mem.write s.pc.toNat (BitVec.ofNat 16 (w % 2 ^ nbits)), running := true }

end Sys2Proof.Machine
end

