-- ==== Sys2Proof/Machine/Loader.lean ====
section
/-! DEFINITION. The image loader and boot (R180 to R186): software of the environment that places one image in memory
after reset and before the first step. UNVERIFIED (D18): its corner cases, notes/assumptions/14.md. -/

namespace Sys2Proof.Machine

/-- Two bytes of an image as a word: the first is bits 15 to 8 (R181). -/
def bigEndian (hi lo : Byte) : Word := hi ++ lo

/-- The big-endian words of a byte sequence; an unpaired last byte is ignored (R181, R186). -/
def imageWords : List Byte → List Word
  | hi :: lo :: rest => bigEndian hi lo :: imageWords rest
  | [_] => []
  | [] => []

/-- The origin and the data words of an image; `none` for a file of fewer than two bytes (R181, R186). -/
def parseImage : List Byte → Option (Word × List Word)
  | hi :: lo :: rest => some (bigEndian hi lo, imageWords rest)
  | [_] => none
  | [] => none

/-- Places words at consecutive addresses while the address is in the address space: no wrap (R182, R183). -/
def placeWords : Nat → List Word → Memory → Memory
  | _, [], m => m
  | a, w :: ws, m => if a < Config.memWords then placeWords (a + 1) ws (m.write a w) else m

/-- What the loader reports to the host. R158 leaves open whether it reports its two diagnostic cases ("reported, if
at all"); DESIGN CHOICE (safe): it reports both, and never through the trace, notes/assumptions/20.md. -/
structure LoadReport where
  /-- `load_image`'s result, false only where the file could not be opened (R185). DESIGN CHOICE: false stands for
  IMAGE_OPEN_FAILED as well. -/
  success   : Bool
  /-- The image ran past 0xFFFF and the rest was dropped: IMAGE_TRUNCATED, when R183 says. DESIGN CHOICE: that it is
  reported; no error, since the load succeeds. -/
  truncated : Bool
  deriving DecidableEq, Repr

/-- `load_image` on the bytes of a file, or on `none` for a file that cannot be opened. Placing is a plain store into
the array: no event, no side effect, and pc stays (R182, R184). -/
def loadImage (file : Option (List Byte)) (s : State) : State × LoadReport :=
  match file with
  | none => (s, ⟨false, false⟩)
  | some bytes =>
    match parseImage bytes with
    | none => (s, ⟨true, false⟩)
    | some img =>
      ({ s with mem := placeWords img.1.toNat img.2 s.mem },
       ⟨true, decide (Config.memWords < img.1.toNat + img.2.length)⟩)

/-- The boot sequence: reset, then one image (R180). The steps that follow are the host's. -/
def boot (file : Option (List Byte)) : State × LoadReport := loadImage file State.reset

end Sys2Proof.Machine
end

