-- ==== Sys2Proof/Machine/Ports.lean ====
section
/-! DEFINITION. The block's ports (R5): what each event of the trace shows at the core's outputs, and the host's
requests. `clk` takes part in no rule and is left out; `mem_rdata` is the value of an `rd` event.
UNVERIFIED (D2, D3, D15, D16): the ports are the spec's own, notes/assumptions/15.md. -/

namespace Sys2Proof.Machine

/-- The core's output ports during one event; a value port is `none` while its strobe is low. -/
structure Ports where
  memRd    : Bool
  memWr    : Bool
  memAddr  : Option Word
  memWdata : Option Word
  outChar  : Option Byte
  outFlush : Bool
  diag     : Option (BitVec 2 × Word)
  deriving DecidableEq, Repr

/-- No strobe is high. -/
def Ports.idle : Ports := ⟨false, false, none, none, none, false, none⟩

/-- The port activity of an event (R5, R128, R157); `outChar` and `diag` stand for `out_valid` with `out_char` and for
`diag_valid` with `diag_kind` and `diag_info`. -/
def Event.ports : Event → Ports
  | .rd a _ => { Ports.idle with memRd := true, memAddr := some a }
  | .wr a v => { Ports.idle with memWr := true, memAddr := some a, memWdata := some v }
  | .out c => { Ports.idle with outChar := some c }
  | .flush => { Ports.idle with outFlush := true }
  | .diag k w => { Ports.idle with diag := some (k.code, w) }

/-- `rst`: every piece of state at its reset value, whatever the state (R170). -/
def resetRequest (_ : State) : State := State.reset

/-- The host's requests between two instructions: reset wins over a step (R170), no request changes nothing (R177). -/
def hostRequest (rst stepReq : Bool) (s : State) : Host.Outcome State Fault Refusal :=
  if rst then .next (resetRequest s) else if stepReq then step s else .next s

/-- The `running` port, the document's `is_running()` (R5, R15, R179). -/
def isRunning (s : State) : Bool := s.running

end Sys2Proof.Machine
end

