-- ==== Sys2Proof/Safety.lean ====
section
/-! DEFINITION. The terms claims are stated in: a run that never stops with a fault or a refusal, the invariant of
R20, the architectural part of a state, what stays unchanged, and the columns of the spec's per-instruction tables
(R11, R14, R46, R157). -/

namespace Sys2Proof.Machine

/-! ## Safe runs and the invariant -/

/-- A run is safe when no number of step requests ends it: the machine never aborts (R150). -/
def SafeRun (s : State) : Prop := ∀ n, ∃ t, Host.Core.run Sys2Proof.core n s = .next t

/-- R20 (a), exactly one flag is set, and the memory list is in its canonical form (notes/assumptions/1.md).
R20 (b) is in the types. -/
abbrev State.Inv (s : State) : Prop := oneFlag s.cond ∧ s.mem.wf

/-! ## Parts of a state -/

/-- The architectural state, the tuple (x, pc, cond, running, mem): the state with the observation blanked (R18). -/
def State.arch (s : State) : State := { s with trace := [] }

/-- The state with another trace. -/
def State.withTrace (s : State) (tr : List Event) : State := { s with trace := tr }

/-- The state with another running flag. -/
def State.withRunning (s : State) (b : Bool) : State := { s with running := b }

/-- Every general register is unchanged. -/
def SameRegs (s t : State) : Prop := ∀ r, t.reg r = s.reg r

/-- Every general register but one is unchanged. -/
def SameRegsBut (d : Reg) (s t : State) : Prop := ∀ r, r ≠ d → t.reg r = s.reg r

/-- Every memory word is unchanged. -/
def SameMem (s t : State) : Prop := ∀ b, t.peek b = s.peek b

/-- Memory after a read of address a: every word is unchanged, but the keyboard-status word is 0 if a is its address. -/
def MemAfterRead (a : Word) (s t : State) : Prop :=
  ∀ b, t.peek b = if b = Config.kbsrAddr ∧ a = Config.kbsrAddr then 0#16 else s.peek b

/-! ## Shapes of an instruction's effect
Each says that the instruction answers a next state, what that state holds, and what it leaves unchanged. -/

/-- The instruction writes one value, a function of the state before it, to one register and sets the flags from it. -/
def DefinesRegister (i : Instr) (dr : Reg) (v : State → Word) : Prop :=
  ∀ s, ∃ t, exec i s = .next t ∧ t.reg dr = v s ∧ SameRegsBut dr s t ∧ t.cond = setcc (v s) ∧ t.pc = s.pc ∧
    t.running = s.running ∧ SameMem s t ∧ t.trace = s.trace

/-- The instruction reads the word at one address into one register and sets the flags from it. -/
def LoadsWord (i : Instr) (dr : Reg) (a : State → Word) : Prop :=
  ∀ s, ∃ t, exec i s = .next t ∧ t.reg dr = s.peek (a s) ∧ SameRegsBut dr s t ∧ t.cond = setcc (s.peek (a s)) ∧
    t.pc = s.pc ∧ t.running = s.running ∧ MemAfterRead (a s) s t ∧ t.trace = s.trace ++ [.rd (a s) (s.peek (a s))]

/-- The instruction stores one register at one address and changes nothing else. -/
def StoresWord (i : Instr) (sr : Reg) (a : State → Word) : Prop :=
  ∀ s, ∃ t, exec i s = .next t ∧ t.peek (a s) = s.reg sr ∧ (∀ b, b ≠ a s → t.peek b = s.peek b) ∧ SameRegs s t ∧
    t.cond = s.cond ∧ t.pc = s.pc ∧ t.running = s.running ∧ t.trace = s.trace ++ [.wr (a s) (s.reg sr)]

/-- The instruction changes nothing but the trace, where it reports its own word. -/
def OnlyReports (i : Instr) (k : DiagKind) : Prop :=
  ∀ s, ∃ t, exec i s = .next t ∧ SameRegs s t ∧ t.cond = s.cond ∧ t.pc = s.pc ∧ t.running = s.running ∧ SameMem s t ∧
    t.trace = s.trace ++ [.diag k (encode i)]

/-! ## Classes of events -/

/-- A memory read. -/
def Event.isRead : Event → Bool
  | .rd _ _ => true
  | .wr _ _ => false
  | .out _ => false
  | .flush => false
  | .diag _ _ => false

/-- A memory write. -/
def Event.isWrite : Event → Bool
  | .rd _ _ => false
  | .wr _ _ => true
  | .out _ => false
  | .flush => false
  | .diag _ _ => false

/-- An event of the output port. -/
def Event.isOutput : Event → Bool
  | .rd _ _ => false
  | .wr _ _ => false
  | .out _ => true
  | .flush => true
  | .diag _ _ => false

/-- A diagnostic event. -/
def Event.isDiag : Event → Bool
  | .rd _ _ => false
  | .wr _ _ => false
  | .out _ => false
  | .flush => false
  | .diag _ _ => true

/-- What PUTS shows for a string at an address: a read and a character for each word (R125). -/
def stringEvents : Word → List Word → List Event
  | _, [] => []
  | a, w :: ws => .rd a w :: .out (charOf w) :: stringEvents (a + 1#16) ws

end Sys2Proof.Machine

namespace Sys2Proof

open Machine

/-! ## The spec's tables -/

/-- R11, column "general register written". -/
def Instr.dest : Instr → Option Reg
  | .br _ _ => none
  | .addReg dr _ _ _ => some dr
  | .addImm dr _ _ => some dr
  | .ld dr _ => some dr
  | .st _ _ => none
  | .jsr _ => some 7#3
  | .jsrr _ _ _ => some 7#3
  | .andReg dr _ _ _ => some dr
  | .andImm dr _ _ => some dr
  | .ldr dr _ _ => some dr
  | .str _ _ _ => none
  | .rti _ => none
  | .notReg dr _ _ => some dr
  | .ldi dr _ => some dr
  | .sti _ _ => none
  | .jmp _ _ _ => none
  | .res _ => none
  | .lea dr _ => some dr
  | .getc _ => none
  | .out _ => none
  | .puts _ => none
  | .inp _ => none
  | .putsp _ => none
  | .halt _ => none
  | .trap _ _ => none

/-- R11, column "general registers read". -/
def Instr.regsRead : Instr → List Reg
  | .br _ _ => []
  | .addReg _ sr1 _ sr2 => [sr1, sr2]
  | .addImm _ sr1 _ => [sr1]
  | .ld _ _ => []
  | .st sr _ => [sr]
  | .jsr _ => []
  | .jsrr _ base _ => [base]
  | .andReg _ sr1 _ sr2 => [sr1, sr2]
  | .andImm _ sr1 _ => [sr1]
  | .ldr _ base _ => [base]
  | .str sr base _ => [base, sr]
  | .rti _ => []
  | .notReg _ sr _ => [sr]
  | .ldi _ _ => []
  | .sti sr _ => [sr]
  | .jmp _ base _ => [base]
  | .res _ => []
  | .lea _ _ => []
  | .getc _ => []
  | .out _ => []
  | .puts _ => [0#3]
  | .inp _ => []
  | .putsp _ => []
  | .halt _ => []
  | .trap _ _ => []

/-- The seven instructions that R14 says set the flags: ADD, AND, NOT, LD, LDI, LDR, LEA. -/
def Instr.setsFlags : Instr → Bool
  | .br _ _ => false
  | .addReg _ _ _ _ => true
  | .addImm _ _ _ => true
  | .ld _ _ => true
  | .st _ _ => false
  | .jsr _ => false
  | .jsrr _ _ _ => false
  | .andReg _ _ _ _ => true
  | .andImm _ _ _ => true
  | .ldr _ _ _ => true
  | .str _ _ _ => false
  | .rti _ => false
  | .notReg _ _ _ => true
  | .ldi _ _ => true
  | .sti _ _ => false
  | .jmp _ _ _ => false
  | .res _ => false
  | .lea _ _ => true
  | .getc _ => false
  | .out _ => false
  | .puts _ => false
  | .inp _ => false
  | .putsp _ => false
  | .halt _ => false
  | .trap _ _ => false

/-- The instructions that write pc beyond the fetch increment: BR, JMP, JSR, JSRR (R12). -/
def Instr.writesPc : Instr → Bool
  | .br _ _ => true
  | .addReg _ _ _ _ => false
  | .addImm _ _ _ => false
  | .ld _ _ => false
  | .st _ _ => false
  | .jsr _ => true
  | .jsrr _ _ _ => true
  | .andReg _ _ _ _ => false
  | .andImm _ _ _ => false
  | .ldr _ _ _ => false
  | .str _ _ _ => false
  | .rti _ => false
  | .notReg _ _ _ => false
  | .ldi _ _ => false
  | .sti _ _ => false
  | .jmp _ _ _ => true
  | .res _ => false
  | .lea _ _ => false
  | .getc _ => false
  | .out _ => false
  | .puts _ => false
  | .inp _ => false
  | .putsp _ => false
  | .halt _ => false
  | .trap _ _ => false

/-- HALT, the one instruction that clears `running` (R15). -/
def Instr.isHalt : Instr → Bool
  | .br _ _ => false
  | .addReg _ _ _ _ => false
  | .addImm _ _ _ => false
  | .ld _ _ => false
  | .st _ _ => false
  | .jsr _ => false
  | .jsrr _ _ _ => false
  | .andReg _ _ _ _ => false
  | .andImm _ _ _ => false
  | .ldr _ _ _ => false
  | .str _ _ _ => false
  | .rti _ => false
  | .notReg _ _ _ => false
  | .ldi _ _ => false
  | .sti _ _ => false
  | .jmp _ _ _ => false
  | .res _ => false
  | .lea _ _ => false
  | .getc _ => false
  | .out _ => false
  | .puts _ => false
  | .inp _ => false
  | .putsp _ => false
  | .halt _ => true
  | .trap _ _ => false

/-- PUTS, the one source of output events (R128). -/
def Instr.isPuts : Instr → Bool
  | .br _ _ => false
  | .addReg _ _ _ _ => false
  | .addImm _ _ _ => false
  | .ld _ _ => false
  | .st _ _ => false
  | .jsr _ => false
  | .jsrr _ _ _ => false
  | .andReg _ _ _ _ => false
  | .andImm _ _ _ => false
  | .ldr _ _ _ => false
  | .str _ _ _ => false
  | .rti _ => false
  | .notReg _ _ _ => false
  | .ldi _ _ => false
  | .sti _ _ => false
  | .jmp _ _ _ => false
  | .res _ => false
  | .lea _ _ => false
  | .getc _ => false
  | .out _ => false
  | .puts _ => true
  | .inp _ => false
  | .putsp _ => false
  | .halt _ => false
  | .trap _ _ => false

/-- The kind of diagnostic event an instruction produces, if any (R157). -/
def Instr.diagKind : Instr → Option DiagKind
  | .br _ _ => none
  | .addReg _ _ _ _ => none
  | .addImm _ _ _ => none
  | .ld _ _ => none
  | .st _ _ => none
  | .jsr _ => none
  | .jsrr _ _ _ => none
  | .andReg _ _ _ _ => none
  | .andImm _ _ _ => none
  | .ldr _ _ _ => none
  | .str _ _ _ => none
  | .rti _ => some .unknownOpcode
  | .notReg _ _ _ => none
  | .ldi _ _ => none
  | .sti _ _ => none
  | .jmp _ _ _ => none
  | .res _ => some .unknownOpcode
  | .lea _ _ => none
  | .getc _ => some .unimplementedTrap
  | .out _ => some .unimplementedTrap
  | .puts _ => none
  | .inp _ => some .unimplementedTrap
  | .putsp _ => some .unimplementedTrap
  | .halt _ => none
  | .trap _ _ => some .unknownTrapVector

/-- The address and the word of an instruction's one write, computed as its meaning computes them; `none` for an
instruction that stores nothing (R46). -/
def Instr.store : Instr → State → Option (Word × Word)
  | .br _ _, _ => none
  | .addReg _ _ _ _, _ => none
  | .addImm _ _ _, _ => none
  | .ld _ _, _ => none
  | .st sr off9, s => some (s.pcRelative off9, s.reg sr)
  | .jsr _, _ => none
  | .jsrr _ _ _, _ => none
  | .andReg _ _ _ _, _ => none
  | .andImm _ _ _, _ => none
  | .ldr _ _ _, _ => none
  | .str sr base off6, s => some (s.basePlus base off6, s.reg sr)
  | .rti _, _ => none
  | .notReg _ _ _, _ => none
  | .ldi _ _, _ => none
  | .sti sr off9, s => some ((s.memRead (s.pcRelative off9)).1, s.reg sr)
  | .jmp _ _ _, _ => none
  | .res _, _ => none
  | .lea _ _, _ => none
  | .getc _, _ => none
  | .out _, _ => none
  | .puts _, _ => none
  | .inp _, _ => none
  | .putsp _, _ => none
  | .halt _, _ => none
  | .trap _ _, _ => none

end Sys2Proof
end

