-- ==== Sys2Proof/Certificates/Slice0/Obligations.lean ====
section
/-! DEFINITION. The statements for the provers. In a statement about `exec`, s is the state after the fetch: its pc is
already the instruction's address plus 1 (R12, R62). Where a statement rests on a decision of the spec (D<n> of
92_eei_decisions.md) or on the model's own choice (notes/assumptions/<n>.md), its docstring names it. -/

open Sys2Proof Sys2Proof.Machine

/-! ## Reset -/

/-- R19: every register 0, pc 0x3000, cond ZERO, running, memory all zero, the trace empty. -/
def Obligations.ResetLeavesTheStatedState : Prop :=
  (∀ r, State.reset.reg r = 0#16) ∧ State.reset.pc = 0x3000#16 ∧ State.reset.cond = 0b010#3 ∧
    State.reset.running = true ∧ (∀ a, State.reset.peek a = 0#16) ∧ State.reset.trace = []

/-! ## Encoding (the numbers and positions are the spec's decisions D5, D6, D8; log 3, 5) -/

/-- Decoding the word of a well-formed instruction gives the instruction back, with every operand and every ignored
bit. -/
def Obligations.DecodeOfEncodeIsTheInstruction : Prop :=
  ∀ i : Instr, i.wellFormed = true → decode (encode i) = i

/-- Every word is a well-formed instruction (R56) and no bit of it is lost. -/
def Obligations.EncodeOfDecodeIsTheWord : Prop :=
  ∀ w : Word, (decode w).wellFormed = true ∧ encode (decode w) = w

/-- The decoder takes the first row of the opcode table that takes the word (R57). -/
def Obligations.DecoderTakesTheFirstTableRow : Prop :=
  ∀ w : Word, firstRow w = some (decode w).row

/-- For each row, a word under the row's mask decodes to the row's instruction with the bits R51 and R52 name. -/
def Obligations.DecoderReadsEachFieldAtItsBits : Prop :=
  ∀ w : Word,
    (w &&& 0xF000#16 = 0x0000#16 → decode w = .br (w.extractLsb' 9 3) (w.extractLsb' 0 9)) ∧
    (w &&& 0xF020#16 = 0x1000#16 →
      decode w = .addReg (w.extractLsb' 9 3) (w.extractLsb' 6 3) (w.extractLsb' 3 2) (w.extractLsb' 0 3)) ∧
    (w &&& 0xF020#16 = 0x1020#16 →
      decode w = .addImm (w.extractLsb' 9 3) (w.extractLsb' 6 3) (w.extractLsb' 0 5)) ∧
    (w &&& 0xF000#16 = 0x2000#16 → decode w = .ld (w.extractLsb' 9 3) (w.extractLsb' 0 9)) ∧
    (w &&& 0xF000#16 = 0x3000#16 → decode w = .st (w.extractLsb' 9 3) (w.extractLsb' 0 9)) ∧
    (w &&& 0xF800#16 = 0x4800#16 → decode w = .jsr (w.extractLsb' 0 11)) ∧
    (w &&& 0xF800#16 = 0x4000#16 →
      decode w = .jsrr (w.extractLsb' 9 2) (w.extractLsb' 6 3) (w.extractLsb' 0 6)) ∧
    (w &&& 0xF020#16 = 0x5000#16 →
      decode w = .andReg (w.extractLsb' 9 3) (w.extractLsb' 6 3) (w.extractLsb' 3 2) (w.extractLsb' 0 3)) ∧
    (w &&& 0xF020#16 = 0x5020#16 →
      decode w = .andImm (w.extractLsb' 9 3) (w.extractLsb' 6 3) (w.extractLsb' 0 5)) ∧
    (w &&& 0xF000#16 = 0x6000#16 →
      decode w = .ldr (w.extractLsb' 9 3) (w.extractLsb' 6 3) (w.extractLsb' 0 6)) ∧
    (w &&& 0xF000#16 = 0x7000#16 →
      decode w = .str (w.extractLsb' 9 3) (w.extractLsb' 6 3) (w.extractLsb' 0 6)) ∧
    (w &&& 0xF000#16 = 0x8000#16 → decode w = .rti (w.extractLsb' 0 12)) ∧
    (w &&& 0xF000#16 = 0x9000#16 →
      decode w = .notReg (w.extractLsb' 9 3) (w.extractLsb' 6 3) (w.extractLsb' 0 6)) ∧
    (w &&& 0xF000#16 = 0xA000#16 → decode w = .ldi (w.extractLsb' 9 3) (w.extractLsb' 0 9)) ∧
    (w &&& 0xF000#16 = 0xB000#16 → decode w = .sti (w.extractLsb' 9 3) (w.extractLsb' 0 9)) ∧
    (w &&& 0xF000#16 = 0xC000#16 →
      decode w = .jmp (w.extractLsb' 9 3) (w.extractLsb' 6 3) (w.extractLsb' 0 6)) ∧
    (w &&& 0xF000#16 = 0xD000#16 → decode w = .res (w.extractLsb' 0 12)) ∧
    (w &&& 0xF000#16 = 0xE000#16 → decode w = .lea (w.extractLsb' 9 3) (w.extractLsb' 0 9)) ∧
    (w &&& 0xF0FF#16 = 0xF020#16 → decode w = .getc (w.extractLsb' 8 4)) ∧
    (w &&& 0xF0FF#16 = 0xF021#16 → decode w = .out (w.extractLsb' 8 4)) ∧
    (w &&& 0xF0FF#16 = 0xF022#16 → decode w = .puts (w.extractLsb' 8 4)) ∧
    (w &&& 0xF0FF#16 = 0xF023#16 → decode w = .inp (w.extractLsb' 8 4)) ∧
    (w &&& 0xF0FF#16 = 0xF024#16 → decode w = .putsp (w.extractLsb' 8 4)) ∧
    (w &&& 0xF0FF#16 = 0xF025#16 → decode w = .halt (w.extractLsb' 8 4)) ∧
    (w &&& 0xF000#16 = 0xF000#16 → w.extractLsb' 0 8 < 0x20#8 ∨ 0x25#8 < w.extractLsb' 0 8 →
      decode w = .trap (w.extractLsb' 8 4) (w.extractLsb' 0 8))

/-- Words written out in the spec's worked vectors decode to the instructions they stand for. -/
def Obligations.WorkedWordsDecode : Prop :=
  decode 0x1283#16 = .addReg 1 2 0 3 ∧ decode 0x103F#16 = .addImm 0 0 0x1F ∧
    decode 0x927F#16 = .notReg 1 1 0x3F ∧ decode 0x0402#16 = .br 0b010 2 ∧
    decode 0x41C0#16 = .jsrr 0 7 0 ∧ decode 0x697E#16 = .ldr 4 5 0x3E ∧
    decode 0xB401#16 = .sti 2 1 ∧ decode 0xFF22#16 = .puts 0xF ∧ decode 0xDABC#16 = .res 0xABC

/-! ## Operands and flags -/

/-- R7's sext_N for every width up to 16: the value itself below 2^(N-1), plus 65536 - 2^N from there on; and the two
address sums that use it (D11, D19). -/
def Obligations.SignExtensionAndAddressSums : Prop :=
  (∀ (n : Nat) (v : BitVec n), 0 < n → n ≤ 16 →
    (sext v).toNat = if v.toNat < 2 ^ (n - 1) then v.toNat else v.toNat + (65536 - 2 ^ n)) ∧
  (∀ (s : State) (off9 : BitVec 9), (s.pcRelative off9).toNat = (s.pc.toNat + (sext off9).toNat) % 65536) ∧
  (∀ (s : State) (off11 : BitVec 11), (s.pcRelative off11).toNat = (s.pc.toNat + (sext off11).toNat) % 65536) ∧
  (∀ (s : State) (base : Reg) (off6 : BitVec 6),
    (s.basePlus base off6).toNat = ((s.reg base).toNat + (sext off6).toNat) % 65536)

/-- R14: the flags of a value; the seven instructions set them from the value they write; no other instruction writes
them; only BR reads them, and only to choose pc. -/
def Obligations.FlagsAreSetBySevenInstructionsAndReadByBranch : Prop :=
  (∀ v : Word, setcc v = if v.toNat = 0 then 0b010#3 else if 32768 ≤ v.toNat then 0b100#3 else 0b001#3) ∧
  (∀ (i : Instr) (s t : State), exec i s = .next t →
    (i.setsFlags = true → ∃ dr, i.dest = some dr ∧ t.cond = setcc (t.reg dr)) ∧
    (i.setsFlags = false → t.cond = s.cond)) ∧
  (∀ (i : Instr) (s t : State) (c : BitVec 3), (∀ mask off9, i ≠ .br mask off9) → exec i s = .next t →
    exec i (s.setCond c) = .next (if i.setsFlags then t else t.setCond c)) ∧
  (∀ (mask : BitVec 3) (off9 : BitVec 9) (s : State) (c : BitVec 3), ∃ target,
    exec (.br mask off9) (s.setCond c) = .next ((s.setCond c).setPc target))

/-- R10: a register reads as it was last written; writing one changes no other and no other part of the machine. -/
def Obligations.RegistersAreOrdinaryAndIndependent : Prop :=
  ∀ (s : State) (r q : Reg) (v : Word),
    (s.setReg r v).reg q = (if q = r then v else s.reg q) ∧ (s.setReg r v).pc = s.pc ∧
    (s.setReg r v).cond = s.cond ∧ (s.setReg r v).running = s.running ∧
    (∀ b, (s.setReg r v).peek b = s.peek b) ∧ (s.setReg r v).trace = s.trace

/-! ## The memory interface -/

/-- R32: a read of any address but 0xFE00, 0xFE02 among them, returns the word, changes nothing and is recorded. -/
def Obligations.OrdinaryReadChangesNothing : Prop :=
  ∀ (s : State) (a : Word), a ≠ 0xFE00#16 →
    (s.memRead a).1 = s.peek a ∧ (s.memRead a).2 = s.withTrace (s.trace ++ [.rd a (s.peek a)])

/-- R33: a read of 0xFE00 returns the word held before, clears it whatever it held, changes no other word, and is
recorded; a second read with no write between returns 0. -/
def Obligations.KeyboardStatusReadIsOneShot : Prop :=
  ∀ s : State,
    (s.memRead 0xFE00#16).1 = s.peek 0xFE00#16 ∧
    (s.memRead 0xFE00#16).2.peek 0xFE00#16 = 0#16 ∧
    (∀ b, b ≠ 0xFE00#16 → (s.memRead 0xFE00#16).2.peek b = s.peek b) ∧
    SameRegs s (s.memRead 0xFE00#16).2 ∧ (s.memRead 0xFE00#16).2.pc = s.pc ∧
    (s.memRead 0xFE00#16).2.cond = s.cond ∧ (s.memRead 0xFE00#16).2.running = s.running ∧
    (s.memRead 0xFE00#16).2.trace = s.trace ++ [.rd 0xFE00#16 (s.peek 0xFE00#16)] ∧
    ((s.memRead 0xFE00#16).2.memRead 0xFE00#16).1 = 0#16

/-- R34: a write stores at every address, 0xFE00 and 0xFE02 among them, with no other effect; the next read of the
address returns the word, and at 0xFE00 clears it. -/
def Obligations.WriteStoresAtEveryAddress : Prop :=
  ∀ (s : State) (a v : Word),
    (s.memWrite a v).peek a = v ∧ (∀ b, b ≠ a → (s.memWrite a v).peek b = s.peek b) ∧
    SameRegs s (s.memWrite a v) ∧ (s.memWrite a v).pc = s.pc ∧ (s.memWrite a v).cond = s.cond ∧
    (s.memWrite a v).running = s.running ∧ (s.memWrite a v).trace = s.trace ++ [.wr a v] ∧
    ((s.memWrite a v).memRead a).1 = v ∧
    ((s.memWrite a v).memRead a).2.peek a = if a = 0xFE00#16 then 0#16 else v

/-- The model's own form of memory (log 1): in canonical form, memories that read alike are equal data. -/
def Obligations.CanonicalMemoriesThatReadAlikeAreEqual : Prop :=
  ∀ m n : Memory, m.wf → n.wf → (∀ a : Word, m.read a.toNat = n.read a.toNat) → m = n

/-! ## The step -/

/-- R62: a step of a running machine reads the word at pc, advances pc by 1 modulo 65536, and is then the decoded
instruction's `exec`; a step of a halted machine is nothing at all. -/
def Obligations.StepFetchesAdvancesAndRunsTheDecodedInstruction : Prop :=
  ∀ s : State,
    (s.running = true → ∃ s₁,
      step s = exec (decode (s.peek s.pc)) s₁ ∧ s₁.pc.toNat = (s.pc.toNat + 1) % 65536 ∧ SameRegs s s₁ ∧
      s₁.cond = s.cond ∧ s₁.running = s.running ∧ MemAfterRead s.pc s s₁ ∧
      s₁.trace = s.trace ++ [.rd s.pc (s.peek s.pc)]) ∧
    (s.running = false → step s = .next s)

/-- Any number of step requests to a halted machine changes nothing (D21; log 12). -/
def Obligations.HaltedMachineStaysAsItIs : Prop :=
  ∀ (s : State) (n : Nat), s.running = false → Host.Core.run Sys2Proof.core n s = .next s

/-! ## ADD, AND, NOT -/

/-- ADD, both forms: the sum modulo 65536, the flags from it, nothing else. -/
def Obligations.AddWritesTheSumAndItsFlags : Prop :=
  (∀ (dr sr1 sr2 : Reg) (ign : BitVec 2),
    DefinesRegister (.addReg dr sr1 ign sr2) dr (fun s => s.reg sr1 + s.reg sr2)) ∧
  (∀ (dr sr1 : Reg) (imm5 : BitVec 5), DefinesRegister (.addImm dr sr1 imm5) dr (fun s => s.reg sr1 + sext imm5))

/-- AND, both forms: the bitwise AND, the flags from it, nothing else. -/
def Obligations.AndWritesTheMeetAndItsFlags : Prop :=
  (∀ (dr sr1 sr2 : Reg) (ign : BitVec 2),
    DefinesRegister (.andReg dr sr1 ign sr2) dr (fun s => s.reg sr1 &&& s.reg sr2)) ∧
  (∀ (dr sr1 : Reg) (imm5 : BitVec 5), DefinesRegister (.andImm dr sr1 imm5) dr (fun s => s.reg sr1 &&& sext imm5))

/-- NOT: 0xFFFF minus the source, the flags from it, nothing else. -/
def Obligations.NotWritesTheComplementAndItsFlags : Prop :=
  ∀ (dr sr : Reg) (ign : BitVec 6), DefinesRegister (.notReg dr sr ign) dr (fun s => 0xFFFF#16 - s.reg sr)

/-! ## BR, JMP, JSR, JSRR -/

/-- BR: pc moves by the offset exactly when the mask and the flags share a bit; mask 000 never branches, mask 111
always does while one flag is set (the pairing of mask and flag bits is the spec's decision D7; log 4). -/
def Obligations.BranchMovesPcWhenMaskMeetsFlags : Prop :=
  ∀ (mask : BitVec 3) (off9 : BitVec 9) (s : State), ∃ t, exec (.br mask off9) s = .next t ∧
    t.pc = (if mask &&& s.cond ≠ 0#3 then s.pcRelative off9 else s.pc) ∧
    (mask = 0b000#3 → t.pc = s.pc) ∧ (mask = 0b111#3 → oneFlag s.cond → t.pc = s.pcRelative off9) ∧
    SameRegs s t ∧ t.cond = s.cond ∧ t.running = s.running ∧ SameMem s t ∧ t.trace = s.trace

/-- JMP: pc becomes the base register, and nothing else changes, x[7] included. -/
def Obligations.JumpGoesToTheBaseRegister : Prop :=
  ∀ (hi : BitVec 3) (base : Reg) (lo : BitVec 6) (s : State), ∃ t, exec (.jmp hi base lo) s = .next t ∧
    t.pc = s.reg base ∧ SameRegs s t ∧ t.cond = s.cond ∧ t.running = s.running ∧ SameMem s t ∧ t.trace = s.trace

/-- JSR: x[7] gets the advanced pc, pc moves by the offset, the flags stay. -/
def Obligations.JsrLinksThenMovesPc : Prop :=
  ∀ (off11 : BitVec 11) (s : State), ∃ t, exec (.jsr off11) s = .next t ∧
    t.reg 7#3 = s.pc ∧ SameRegsBut 7#3 s t ∧ t.pc = s.pcRelative off11 ∧ t.cond = s.cond ∧
    t.running = s.running ∧ SameMem s t ∧ t.trace = s.trace

/-- JSRR: x[7] gets the advanced pc BEFORE the base register is read, so JSRR R7 falls through (D25; log 11). -/
def Obligations.JsrrLinksBeforeItReadsTheBase : Prop :=
  ∀ (hi : BitVec 2) (base : Reg) (lo : BitVec 6) (s : State), ∃ t, exec (.jsrr hi base lo) s = .next t ∧
    t.reg 7#3 = s.pc ∧ SameRegsBut 7#3 s t ∧ t.pc = (if base = 7#3 then s.pc else s.reg base) ∧
    t.cond = s.cond ∧ t.running = s.running ∧ SameMem s t ∧ t.trace = s.trace

/-! ## Loads, LEA, stores -/

/-- LD: one read at pc plus offset, into DR, with flags. -/
def Obligations.LdLoadsPcRelative : Prop :=
  ∀ (dr : Reg) (off9 : BitVec 9), LoadsWord (.ld dr off9) dr (fun s => s.pcRelative off9)

/-- LDR: one read at base plus offset, into DR, with flags; the base is read before DR is written. -/
def Obligations.LdrLoadsBasePlusOffset : Prop :=
  ∀ (dr base : Reg) (off6 : BitVec 6), LoadsWord (.ldr dr base off6) dr (fun s => s.basePlus base off6)

/-- LDI: the pointer is read first, then the data at the pointer, each with the side effect at 0xFE00; so a pointer at
0xFE00 that points to 0xFE00 loads 0. -/
def Obligations.LdiLoadsThroughThePointer : Prop :=
  ∀ (dr : Reg) (off9 : BitVec 9) (s : State) (a p v : Word), a = s.pcRelative off9 → p = s.peek a →
    v = (if a = 0xFE00#16 ∧ p = 0xFE00#16 then 0#16 else s.peek p) →
    ∃ t, exec (.ldi dr off9) s = .next t ∧ t.reg dr = v ∧ SameRegsBut dr s t ∧ t.cond = setcc v ∧ t.pc = s.pc ∧
      t.running = s.running ∧
      (∀ b, t.peek b = if b = 0xFE00#16 ∧ (a = 0xFE00#16 ∨ p = 0xFE00#16) then 0#16 else s.peek b) ∧
      t.trace = s.trace ++ [.rd a p, .rd p v]

/-- LEA: the address itself, with flags and without an access. -/
def Obligations.LeaWritesTheAddressAndItsFlags : Prop :=
  ∀ (dr : Reg) (off9 : BitVec 9), DefinesRegister (.lea dr off9) dr (fun s => s.pcRelative off9)

/-- ST: the register at pc plus offset, and nothing else. -/
def Obligations.StStoresPcRelative : Prop :=
  ∀ (sr : Reg) (off9 : BitVec 9), StoresWord (.st sr off9) sr (fun s => s.pcRelative off9)

/-- STR: the register at base plus offset, and nothing else (which field is which: G2; log 3). -/
def Obligations.StrStoresBasePlusOffset : Prop :=
  ∀ (sr base : Reg) (off6 : BitVec 6), StoresWord (.str sr base off6) sr (fun s => s.basePlus base off6)

/-- STI: the pointer is read, with the side effect at 0xFE00, and then the register is stored where it points. -/
def Obligations.StiStoresThroughThePointer : Prop :=
  ∀ (sr : Reg) (off9 : BitVec 9) (s : State) (a p : Word), a = s.pcRelative off9 → p = (s.memRead a).1 →
    ∃ t, exec (.sti sr off9) s = .next t ∧ p = s.peek a ∧ t.peek p = s.reg sr ∧
      (∀ b, b ≠ p → t.peek b = if b = 0xFE00#16 ∧ a = 0xFE00#16 then 0#16 else s.peek b) ∧
      SameRegs s t ∧ t.cond = s.cond ∧ t.pc = s.pc ∧ t.running = s.running ∧
      t.trace = s.trace ++ [.rd a p, .wr p (s.reg sr)]

/-! ## TRAP, RTI, RES -/

/-- GETC, OUT, IN and PUTSP change nothing and report UNIMPLEMENTED_TRAP with their whole word (D16; log 15). -/
def Obligations.UnimplementedTrapsOnlyReport : Prop :=
  ∀ ign : BitVec 4, OnlyReports (.getc ign) .unimplementedTrap ∧ OnlyReports (.out ign) .unimplementedTrap ∧
    OnlyReports (.inp ign) .unimplementedTrap ∧ OnlyReports (.putsp ign) .unimplementedTrap

/-- TRAP with a vector outside 0x20 to 0x25 changes nothing and reports UNKNOWN_TRAP_VECTOR (D9, D16; log 5). -/
def Obligations.UnnamedTrapVectorsOnlyReport : Prop :=
  ∀ (ign : BitVec 4) (vect : BitVec 8), vect < 0x20#8 ∨ 0x25#8 < vect →
    OnlyReports (.trap ign vect) .unknownTrapVector

/-- HALT clears `running` and changes nothing else: no output, no flush (D13; log 9). -/
def Obligations.HaltClearsRunningAndNothingElse : Prop :=
  ∀ (ign : BitVec 4) (s : State), ∃ t, exec (.halt ign) s = .next t ∧ t.running = false ∧ SameRegs s t ∧
    t.cond = s.cond ∧ t.pc = s.pc ∧ SameMem s t ∧ t.trace = s.trace

/-- PUTS on a string of nonzero words at x[0], x[0] + 1, … (modulo 65536) ended by a zero word: each word is read and
its low byte emitted in turn, the zero word is read, and one flush follows; no register, flag or pc changes, and memory
changes only in the keyboard-status word, which is cleared if the walk read it (D4, D14; log 8, 10). -/
def Obligations.PutsEmitsTheStringThenFlushes : Prop :=
  ∀ (ign : BitVec 4) (s : State) (ws : List Word), ws.length < 65536 →
    (∀ (k : Nat) (h : k < ws.length), ws[k] = s.peek (s.reg 0#3 + BitVec.ofNat 16 k) ∧ ws[k] ≠ 0#16) →
    s.peek (s.reg 0#3 + BitVec.ofNat 16 ws.length) = 0#16 →
    ∃ t, exec (.puts ign) s = .next t ∧
      t.trace = s.trace ++ stringEvents (s.reg 0#3) ws ++
        [.rd (s.reg 0#3 + BitVec.ofNat 16 ws.length) 0#16, .flush] ∧
      SameRegs s t ∧ t.cond = s.cond ∧ t.pc = s.pc ∧ t.running = s.running ∧
      (∀ b, b ≠ 0xFE00#16 → t.peek b = s.peek b) ∧
      ((∃ k, k ≤ ws.length ∧ s.reg 0#3 + BitVec.ofNat 16 k = 0xFE00#16) → t.peek 0xFE00#16 = 0#16) ∧
      ((∀ k, k ≤ ws.length → s.reg 0#3 + BitVec.ofNat 16 k ≠ 0xFE00#16) → t.peek 0xFE00#16 = s.peek 0xFE00#16)

/-- PUTS completes in every state, memory without a zero word included, after at most 131072 reads and 131071
characters, and ends with a flush (the bound rests on D4 and D14; log 8, 10). -/
def Obligations.PutsAlwaysCompletesWithinItsBound : Prop :=
  ∀ (ign : BitVec 4) (s : State), ∃ t evs, exec (.puts ign) s = .next t ∧ t.trace = s.trace ++ evs ++ [.flush] ∧
    (evs.filter Event.isRead).length ≤ 131072 ∧
    (evs.filter Event.isOutput).length + 1 = (evs.filter Event.isRead).length ∧
    SameRegs s t ∧ t.cond = s.cond ∧ t.pc = s.pc ∧ t.running = s.running ∧
    (∀ b, b ≠ 0xFE00#16 → t.peek b = s.peek b) ∧
    (t.peek 0xFE00#16 = s.peek 0xFE00#16 ∨ t.peek 0xFE00#16 = 0#16)

/-- R142: RTI and RES differ from a BR with mask 000 by their diagnostic event alone, none of the three changes any
state (pc has had its fetch increment), and no event feeds back: whatever the trace holds, every instruction leaves
the same architectural state. -/
def Obligations.RtiAndResAreNoOperationsWithAnEvent : Prop :=
  ∀ ign : BitVec 12, OnlyReports (.rti ign) .unknownOpcode ∧ OnlyReports (.res ign) .unknownOpcode ∧
    (∀ (off9 : BitVec 9) (s t : State), (exec (.rti ign) s = .next t ∨ exec (.res ign) s = .next t) →
      exec (.br 0b000#3 off9) s = .next s ∧ t.arch = s.arch) ∧
    ∀ (i : Instr) (s t : State) (tr : List Event), exec i s = .next t →
      ∃ u, exec i (s.withTrace tr) = .next u ∧ u.arch = t.arch

/-! ## Rules of the whole machine -/

/-- R11: no instruction writes a register other than the table's, and a register the table does not list as read has no
influence on it; JSR and JSRR write the advanced pc to x[7], PUTS starts to read at x[0]; reset writes every register. -/
def Obligations.InstructionsUseOnlyTheRegistersOfTheTable : Prop :=
  (∀ (i : Instr) (s t : State), exec i s = .next t →
    (∀ r, i.dest ≠ some r → t.reg r = s.reg r) ∧
    (∀ (r : Reg) (v : Word), r ∉ i.regsRead →
      exec i (s.setReg r v) = .next (if i.dest = some r then t else t.setReg r v))) ∧
  (∀ (off11 : BitVec 11) (s t : State), exec (.jsr off11) s = .next t → t.reg 7#3 = s.pc) ∧
  (∀ (hi : BitVec 2) (base : Reg) (lo : BitVec 6) (s t : State),
    exec (.jsrr hi base lo) s = .next t → t.reg 7#3 = s.pc) ∧
  (∀ (ign : BitVec 4) (s t : State), exec (.puts ign) s = .next t →
    ∃ evs, t.trace = s.trace ++ .rd (s.reg 0#3) (s.peek (s.reg 0#3)) :: evs) ∧
  (∀ r, State.reset.reg r = 0#16)

/-- pc is left as the fetch advanced it by every instruction but BR, JMP, JSR and JSRR. -/
def Obligations.OnlyControlTransfersWritePc : Prop :=
  ∀ (i : Instr) (s t : State), i.writesPc = false → exec i s = .next t → t.pc = s.pc

/-- R15: `running` is 1 after reset, is cleared by HALT alone and set by nothing but reset; the step logic reads it and
no instruction does; no memory address maps to it; the `running` port shows it. -/
def Obligations.OnlyHaltClearsRunning : Prop :=
  State.reset.running = true ∧ (∀ s : State, resetRequest s = State.reset) ∧
  (∀ (i : Instr) (s t : State), exec i s = .next t → t.running = (s.running && !i.isHalt)) ∧
  (∀ s : State, s.running = false → step s = .next s) ∧
  (∀ (i : Instr) (s t : State) (b : Bool), exec i s = .next t →
    exec i (s.withRunning b) = .next (t.withRunning (b && !i.isHalt))) ∧
  (∀ (s : State) (a v : Word) (b : Bool), (s.memWrite a v).running = s.running ∧
    (s.memRead a).2.running = s.running ∧ ((s.withRunning b).memRead a).1 = (s.memRead a).1) ∧
  (∀ s : State, isRunning s = s.running)

/-- Memory after any instruction: the one word it stores, at the address its meaning computes, and the keyboard-status
word a read may have cleared; and the write events are exactly that store. -/
def Obligations.InstructionsWriteOnlyTheirOneStore : Prop :=
  ∀ (i : Instr) (s t : State), exec i s = .next t →
    (∀ a v, i.store s = some (a, v) → t.peek a = v ∧ ∀ b, b ≠ a → b ≠ 0xFE00#16 → t.peek b = s.peek b) ∧
    (i.store s = none → ∀ b, b ≠ 0xFE00#16 → t.peek b = s.peek b) ∧
    ((∀ v, i.store s ≠ some (0xFE00#16, v)) → t.peek 0xFE00#16 = s.peek 0xFE00#16 ∨ t.peek 0xFE00#16 = 0#16) ∧
    ∃ evs, t.trace = s.trace ++ evs ∧
      (∀ a v, i.store s = some (a, v) → evs.filter Event.isWrite = [.wr a v]) ∧
      (i.store s = none → evs.filter Event.isWrite = [])

/-- Diagnostic events come from the instructions of R157's table, one each, with the instruction word; output events
come from PUTS alone (D15, D16; log 15). A trap term with a named vector, which no word decodes to, reports as the
others do: the model's choice (log 18). -/
def Obligations.EventsComeFromTheirInstructionsOnly : Prop :=
  ∀ (i : Instr) (s t : State), exec i s = .next t → ∃ evs, t.trace = s.trace ++ evs ∧
    (∀ k, i.diagKind = some k → evs.filter Event.isDiag = [.diag k (encode i)]) ∧
    (i.diagKind = none → evs.filter Event.isDiag = []) ∧
    (i.isPuts = false → evs.filter Event.isOutput = [])

/-- The bits no field uses have no effect: the instruction with canonical ignored bits does the same, and but for the
word in a diagnostic event the whole next state is the same (D10; log 6). -/
def Obligations.IgnoredBitsHaveNoEffect : Prop :=
  ∀ (i : Instr) (s t : State), exec i s = .next t →
    ∃ u, exec i.canonical s = .next u ∧ u.arch = t.arch ∧ (i.diagKind = none → u = t)

/-- A store is seen by a fetch from its address, whatever the address and with nothing in between. -/
def Obligations.FetchSeesTheLatestStore : Prop :=
  ∀ (i : Instr) (s t : State) (a v : Word), i.store s = some (a, v) → exec i s = .next t →
    (t.setPc a).fetch.1 = v

/-- R150: no word, no operand, no address and no state makes the core trap, fault, abort or stop; only HALT clears
`running`. -/
def Obligations.StepAlwaysAnswersANextState : Prop :=
  ∀ s : State, ∃ t, step s = .next t ∧
    (t.running = s.running ∨ (decode (s.peek s.pc)).isHalt = true)

/-- From every state, any number of step requests is answered: every run is safe. -/
def Obligations.EveryRunIsSafe : Prop :=
  ∀ s : State, SafeRun s

/-- Exactly one flag is set and memory is in canonical form at reset. -/
def Obligations.InvariantHoldsAtReset : Prop :=
  State.reset.Inv

/-- Every step keeps exactly one flag set and memory in canonical form (R20 (a) and the model's memory form, log 1). -/
def Obligations.EveryStepKeepsTheInvariant : Prop :=
  ∀ s t : State, s.Inv → step s = .next t → t.Inv

/-- The trace is an observation: a step appends events that do not depend on what the trace held, and nothing else
depends on it (D15, D16; log 2). -/
def Obligations.TraceIsNeverRead : Prop :=
  ∀ s t : State, step s = .next t → ∃ evs, t.trace = s.trace ++ evs ∧
    ∀ tr, step (s.withTrace tr) = .next (t.withTrace (tr ++ evs))

/-! ## Host and loader -/

/-- R181, R182, R183: a file of at least two bytes places the big-endian words that follow its origin at consecutive
addresses up to 0xFFFF, leaves every other word 0, drops the rest without an error, and succeeds. Registers, flags,
`running`, pc and the trace stay as reset leaves them (R184). That the loader reports the truncation to the host at all
is the model's choice (log 20). -/
def Obligations.ImageIsPlacedBigEndianAtItsOrigin : Prop :=
  ∀ (hi lo : Byte) (data : List Byte) (origin n : Nat), origin = hi.toNat * 256 + lo.toNat → n = data.length / 2 →
    let b := boot (some (hi :: lo :: data))
    b.2.success = true ∧ (b.2.truncated = true ↔ 65536 < origin + n) ∧
    (∀ (a : Word) (k : Nat), a.toNat = origin + k → k < n →
      (b.1.peek a).toNat = (data.getD (2 * k) 0).toNat * 256 + (data.getD (2 * k + 1) 0).toNat) ∧
    (∀ a : Word, (a.toNat < origin ∨ origin + n ≤ a.toNat) → b.1.peek a = 0#16) ∧
    SameRegs State.reset b.1 ∧ b.1.pc = 0x3000#16 ∧ b.1.cond = State.reset.cond ∧ b.1.running = true ∧
    b.1.trace = []

/-- R185: a file that cannot be opened is reported as a failure and leaves memory all zero; stepping anyway executes
no-operations for ever, pc counting through the address space and wrapping, and never halts. -/
def Obligations.FailedLoadRunsOnZeroedMemory : Prop :=
  (boot none).1 = State.reset ∧ (boot none).2.success = false ∧
  ∀ n : Nat, ∃ t, Host.Core.run Sys2Proof.core n (boot none).1 = .next t ∧
    t.pc.toNat = (0x3000 + n) % 65536 ∧ t.running = true ∧ t.cond = State.reset.cond ∧ SameRegs State.reset t ∧
    ∀ b, t.peek b = 0#16

/-- Files the document does not settle: fewer than two bytes load nothing and succeed; an unpaired last byte is ignored
(D18; log 14); that a report says whether the image was truncated is the model's choice (log 20). -/
def Obligations.LoaderCornerCases : Prop :=
  (∀ bytes : List Byte, bytes.length < 2 → boot (some bytes) = (State.reset, ⟨true, false⟩)) ∧
  (∀ (hi lo last : Byte) (data : List Byte), data.length % 2 = 0 →
    boot (some (hi :: lo :: data ++ [last])) = boot (some (hi :: lo :: data)))

/-- Reset wins over a step request and gives the reset state from any state; a step request alone is a step; no request
changes nothing (D17; log 13). -/
def Obligations.ResetWinsOverAStepRequest : Prop :=
  ∀ s : State, (∀ stepReq, hostRequest true stepReq s = .next State.reset) ∧
    hostRequest false true s = step s ∧ hostRequest false false s = .next s

/-- The read and write strobes are never both high; a character, a flush and a diagnostic event, whose kinds have the
codes 0, 1 and 2, come with neither (D2, D3, D15, D16; log 15). -/
def Obligations.PortStrobesExclude : Prop :=
  (∀ e : Event, (e.ports.memRd && e.ports.memWr) = false ∧ e.ports.memRd = e.isRead ∧ e.ports.memWr = e.isWrite ∧
    (e.ports.outChar.isSome || e.ports.outFlush) = e.isOutput ∧ e.ports.diag.isSome = e.isDiag) ∧
  (∀ w : Word, (Event.diag .unknownOpcode w).ports.diag = some (0#2, w) ∧
    (Event.diag .unimplementedTrap w).ports.diag = some (1#2, w) ∧
    (Event.diag .unknownTrapVector w).ports.diag = some (2#2, w))
end

