-- ==== Sys2Proof/Laws/Memory.lean ====
section
/-! SUPPORT. The laws of the memory array: a read after a write, and that a write keeps the canonical form. -/

namespace Sys2Proof.Machine

@[simp] theorem Memory.read_nil (a : Nat) : Memory.read [] a = 0#16 := rfl

theorem Memory.read_cons (c : Nat × Word) (m : Memory) (a : Nat) :
    Memory.read (c :: m) a = if c.1 = a then c.2 else Memory.read m a := rfl

theorem Memory.read_remove (m : Memory) (a b : Nat) :
    (m.remove a).read b = if b = a then 0#16 else m.read b := by
  induction m with
  | nil => simp [Memory.remove]
  | cons c m ih =>
    rw [Memory.remove] at ih ⊢
    by_cases hc : c.1 = a
    · simp only [List.filter_cons, hc, bne_self_eq_false, Bool.false_eq_true, if_false, ih, Memory.read_cons]
      by_cases hb : b = a
      · simp [hb]
      · simp [hb, Ne.symm hb]
    · simp only [List.filter_cons, bne_iff_ne.mpr hc, if_true, Memory.read_cons, ih]
      by_cases hb : b = a
      · subst hb
        simp [hc]
      · simp [hb]

theorem Memory.read_place (m : Memory) (a : Nat) (v : Word) (b : Nat) (h : ∀ c ∈ m, c.1 ≠ a) :
    (Memory.place m a v).read b = if b = a then v else m.read b := by
  induction m with
  | nil =>
    by_cases hb : b = a
    · simp [Memory.place, Memory.read_cons, hb]
    · simp [Memory.place, Memory.read_cons, hb, Ne.symm hb]
  | cons c m ih =>
    have hc : c.1 ≠ a := h c (by simp)
    have ih' := ih fun d hd => h d (by simp [hd])
    by_cases hlt : a < c.1
    · simp only [Memory.place, hlt, if_true, Memory.read_cons]
      by_cases hb : b = a
      · simp [hb]
      · simp [hb, Ne.symm hb]
    · simp only [Memory.place, hlt, if_false, Memory.read_cons, ih']
      by_cases hb : b = a
      · simp [hb, hc]
      · simp [hb]

theorem Memory.ne_of_mem_remove {m : Memory} {a : Nat} {c : Nat × Word} (h : c ∈ m.remove a) : c.1 ≠ a := by
  simpa using (List.mem_filter.mp h).2

/-- A read after a write, on any list: the word written at its own address, the old word everywhere else. -/
@[simp] theorem Memory.read_write (m : Memory) (a : Nat) (v : Word) (b : Nat) :
    (m.write a v).read b = if b = a then v else m.read b := by
  unfold Memory.write
  split
  · rename_i hv
    subst hv
    exact Memory.read_remove m a b
  · rw [Memory.read_place _ _ _ _ fun c hc => Memory.ne_of_mem_remove hc, Memory.read_remove]
    split <;> simp_all

theorem Memory.wf_nil : Memory.wf [] := by simp [Memory.wf]

theorem Memory.wf_remove {m : Memory} (a : Nat) (h : m.wf) : (m.remove a).wf :=
  ⟨h.1.filter _, fun c hc => h.2 c (List.mem_filter.mp hc).1⟩

theorem Memory.mem_place {m : Memory} {a : Nat} {v : Word} {d : Nat × Word} :
    d ∈ Memory.place m a v ↔ d = (a, v) ∨ d ∈ m := by
  induction m with
  | nil => simp [Memory.place]
  | cons c m ih =>
    unfold Memory.place
    split <;> simp [ih, or_left_comm]

theorem Memory.pairwise_place {m : Memory} {a : Nat} (v : Word) (h : m.Pairwise (fun c d => c.1 < d.1))
    (hne : ∀ c ∈ m, c.1 ≠ a) : (Memory.place m a v).Pairwise (fun c d => c.1 < d.1) := by
  induction m with
  | nil => simp [Memory.place]
  | cons c m ih =>
    rw [List.pairwise_cons] at h
    unfold Memory.place
    split
    · rename_i hlt
      refine List.pairwise_cons.mpr ⟨fun d hd => ?_, List.pairwise_cons.mpr h⟩
      rcases List.mem_cons.mp hd with rfl | hd
      · exact hlt
      · exact hlt.trans (h.1 d hd)
    · rename_i hlt
      refine List.pairwise_cons.mpr ⟨fun d hd => ?_, ih h.2 fun d hd => hne d (by simp [hd])⟩
      have hc : c.1 ≠ a := hne c (by simp)
      rcases Memory.mem_place.mp hd with rfl | hd
      · show c.1 < a
        omega
      · exact h.1 d hd

/-- A write inside the address space keeps the canonical form. -/
theorem Memory.wf_write {m : Memory} (a : Nat) (v : Word) (h : m.wf) (ha : a < Config.memWords) :
    (m.write a v).wf := by
  have hr := Memory.wf_remove a h
  unfold Memory.write
  split
  · exact hr
  · rename_i hv
    refine ⟨Memory.pairwise_place v hr.1 fun c hc => Memory.ne_of_mem_remove hc, fun c hc => ?_⟩
    rcases Memory.mem_place.mp hc with rfl | hc
    · exact ⟨ha, hv⟩
    · exact hr.2 c hc

/-- Every address the core puts out is inside the address space (R30, R31). -/
theorem toNat_lt_memWords (a : Word) : a.toNat < Config.memWords := a.isLt

end Sys2Proof.Machine
end

