-- ==== Sys2Proof/Laws/State.lean ====
section
/-! SUPPORT. Each field of the state after each update: one lemma per field per update, true by `rfl`. -/

namespace Sys2Proof.Machine

/-! ### setReg -/

@[simp] theorem x_setReg (s : State) (r : Reg) (v : Word) : (s.setReg r v).x = s.x.set r.toNat v r.isLt := rfl
@[simp] theorem pc_setReg (s : State) (r : Reg) (v : Word) : (s.setReg r v).pc = s.pc := rfl
@[simp] theorem cond_setReg (s : State) (r : Reg) (v : Word) : (s.setReg r v).cond = s.cond := rfl
@[simp] theorem running_setReg (s : State) (r : Reg) (v : Word) : (s.setReg r v).running = s.running := rfl
@[simp] theorem mem_setReg (s : State) (r : Reg) (v : Word) : (s.setReg r v).mem = s.mem := rfl
@[simp] theorem trace_setReg (s : State) (r : Reg) (v : Word) : (s.setReg r v).trace = s.trace := rfl

/-! ### setPc -/

@[simp] theorem x_setPc (s : State) (t : Word) : (s.setPc t).x = s.x := rfl
@[simp] theorem pc_setPc (s : State) (t : Word) : (s.setPc t).pc = t := rfl
@[simp] theorem cond_setPc (s : State) (t : Word) : (s.setPc t).cond = s.cond := rfl
@[simp] theorem running_setPc (s : State) (t : Word) : (s.setPc t).running = s.running := rfl
@[simp] theorem mem_setPc (s : State) (t : Word) : (s.setPc t).mem = s.mem := rfl
@[simp] theorem trace_setPc (s : State) (t : Word) : (s.setPc t).trace = s.trace := rfl

/-! ### setCond -/

@[simp] theorem x_setCond (s : State) (c : BitVec 3) : (s.setCond c).x = s.x := rfl
@[simp] theorem pc_setCond (s : State) (c : BitVec 3) : (s.setCond c).pc = s.pc := rfl
@[simp] theorem cond_setCond (s : State) (c : BitVec 3) : (s.setCond c).cond = c := rfl
@[simp] theorem running_setCond (s : State) (c : BitVec 3) : (s.setCond c).running = s.running := rfl
@[simp] theorem mem_setCond (s : State) (c : BitVec 3) : (s.setCond c).mem = s.mem := rfl
@[simp] theorem trace_setCond (s : State) (c : BitVec 3) : (s.setCond c).trace = s.trace := rfl

/-! ### clearRunning -/

@[simp] theorem x_clearRunning (s : State) : (s.clearRunning).x = s.x := rfl
@[simp] theorem pc_clearRunning (s : State) : (s.clearRunning).pc = s.pc := rfl
@[simp] theorem cond_clearRunning (s : State) : (s.clearRunning).cond = s.cond := rfl
@[simp] theorem running_clearRunning (s : State) : (s.clearRunning).running = false := rfl
@[simp] theorem mem_clearRunning (s : State) : (s.clearRunning).mem = s.mem := rfl
@[simp] theorem trace_clearRunning (s : State) : (s.clearRunning).trace = s.trace := rfl

/-! ### emit -/

@[simp] theorem x_emit (s : State) (e : Event) : (s.emit e).x = s.x := rfl
@[simp] theorem pc_emit (s : State) (e : Event) : (s.emit e).pc = s.pc := rfl
@[simp] theorem cond_emit (s : State) (e : Event) : (s.emit e).cond = s.cond := rfl
@[simp] theorem running_emit (s : State) (e : Event) : (s.emit e).running = s.running := rfl
@[simp] theorem mem_emit (s : State) (e : Event) : (s.emit e).mem = s.mem := rfl
@[simp] theorem trace_emit (s : State) (e : Event) : (s.emit e).trace = s.trace ++ [e] := rfl

/-! ### diag -/

@[simp] theorem x_diag (s : State) (k : DiagKind) (w : Word) : (s.diag k w).x = s.x := rfl
@[simp] theorem pc_diag (s : State) (k : DiagKind) (w : Word) : (s.diag k w).pc = s.pc := rfl
@[simp] theorem cond_diag (s : State) (k : DiagKind) (w : Word) : (s.diag k w).cond = s.cond := rfl
@[simp] theorem running_diag (s : State) (k : DiagKind) (w : Word) : (s.diag k w).running = s.running := rfl
@[simp] theorem mem_diag (s : State) (k : DiagKind) (w : Word) : (s.diag k w).mem = s.mem := rfl
@[simp] theorem trace_diag (s : State) (k : DiagKind) (w : Word) : (s.diag k w).trace = s.trace ++ [.diag k w] := rfl

/-! ### afterRead -/

@[simp] theorem x_afterRead (s : State) (a : Word) : (s.afterRead a).x = s.x := rfl
@[simp] theorem pc_afterRead (s : State) (a : Word) : (s.afterRead a).pc = s.pc := rfl
@[simp] theorem cond_afterRead (s : State) (a : Word) : (s.afterRead a).cond = s.cond := rfl
@[simp] theorem running_afterRead (s : State) (a : Word) : (s.afterRead a).running = s.running := rfl
@[simp] theorem mem_afterRead (s : State) (a : Word) : (s.afterRead a).mem = if a = Config.kbsrAddr then s.mem.write a.toNat 0#16 else s.mem := rfl
@[simp] theorem trace_afterRead (s : State) (a : Word) : (s.afterRead a).trace = s.trace ++ [.rd a (s.peek a)] := rfl

/-! ### memWrite -/

@[simp] theorem x_memWrite (s : State) (a v : Word) : (s.memWrite a v).x = s.x := rfl
@[simp] theorem pc_memWrite (s : State) (a v : Word) : (s.memWrite a v).pc = s.pc := rfl
@[simp] theorem cond_memWrite (s : State) (a v : Word) : (s.memWrite a v).cond = s.cond := rfl
@[simp] theorem running_memWrite (s : State) (a v : Word) : (s.memWrite a v).running = s.running := rfl
@[simp] theorem mem_memWrite (s : State) (a v : Word) : (s.memWrite a v).mem = s.mem.write a.toNat v := rfl
@[simp] theorem trace_memWrite (s : State) (a v : Word) : (s.memWrite a v).trace = s.trace ++ [.wr a v] := rfl

/-! ### define -/

@[simp] theorem x_define (s : State) (dr : Reg) (v : Word) : (s.define dr v).x = s.x.set dr.toNat v dr.isLt := rfl
@[simp] theorem pc_define (s : State) (dr : Reg) (v : Word) : (s.define dr v).pc = s.pc := rfl
@[simp] theorem cond_define (s : State) (dr : Reg) (v : Word) : (s.define dr v).cond = setcc v := rfl
@[simp] theorem running_define (s : State) (dr : Reg) (v : Word) : (s.define dr v).running = s.running := rfl
@[simp] theorem mem_define (s : State) (dr : Reg) (v : Word) : (s.define dr v).mem = s.mem := rfl
@[simp] theorem trace_define (s : State) (dr : Reg) (v : Word) : (s.define dr v).trace = s.trace := rfl

/-! ### link -/

@[simp] theorem x_link (s : State) : (s.link).x = s.x.set Config.linkReg.toNat s.pc Config.linkReg.isLt := rfl
@[simp] theorem pc_link (s : State) : (s.link).pc = s.pc := rfl
@[simp] theorem cond_link (s : State) : (s.link).cond = s.cond := rfl
@[simp] theorem running_link (s : State) : (s.link).running = s.running := rfl
@[simp] theorem mem_link (s : State) : (s.link).mem = s.mem := rfl
@[simp] theorem trace_link (s : State) : (s.link).trace = s.trace := rfl

/-! ### withTrace -/

@[simp] theorem x_withTrace (s : State) (tr : List Event) : (s.withTrace tr).x = s.x := rfl
@[simp] theorem pc_withTrace (s : State) (tr : List Event) : (s.withTrace tr).pc = s.pc := rfl
@[simp] theorem cond_withTrace (s : State) (tr : List Event) : (s.withTrace tr).cond = s.cond := rfl
@[simp] theorem running_withTrace (s : State) (tr : List Event) : (s.withTrace tr).running = s.running := rfl
@[simp] theorem mem_withTrace (s : State) (tr : List Event) : (s.withTrace tr).mem = s.mem := rfl
@[simp] theorem trace_withTrace (s : State) (tr : List Event) : (s.withTrace tr).trace = tr := rfl

/-! ### withRunning -/

@[simp] theorem x_withRunning (s : State) (b : Bool) : (s.withRunning b).x = s.x := rfl
@[simp] theorem pc_withRunning (s : State) (b : Bool) : (s.withRunning b).pc = s.pc := rfl
@[simp] theorem cond_withRunning (s : State) (b : Bool) : (s.withRunning b).cond = s.cond := rfl
@[simp] theorem running_withRunning (s : State) (b : Bool) : (s.withRunning b).running = b := rfl
@[simp] theorem mem_withRunning (s : State) (b : Bool) : (s.withRunning b).mem = s.mem := rfl
@[simp] theorem trace_withRunning (s : State) (b : Bool) : (s.withRunning b).trace = s.trace := rfl

/-! ### arch -/

@[simp] theorem x_arch (s : State) : (s.arch).x = s.x := rfl
@[simp] theorem pc_arch (s : State) : (s.arch).pc = s.pc := rfl
@[simp] theorem cond_arch (s : State) : (s.arch).cond = s.cond := rfl
@[simp] theorem running_arch (s : State) : (s.arch).running = s.running := rfl
@[simp] theorem mem_arch (s : State) : (s.arch).mem = s.mem := rfl
@[simp] theorem trace_arch (s : State) : (s.arch).trace = [] := rfl

/-! ### the register and memory accessors of an update that leaves them alone -/

@[simp] theorem peek_setReg (s : State) (r : Reg) (v : Word) (b : Word) : (s.setReg r v).peek b = s.peek b := rfl
@[simp] theorem reg_setPc (s : State) (t : Word) (q : Reg) : (s.setPc t).reg q = s.reg q := rfl
@[simp] theorem peek_setPc (s : State) (t : Word) (b : Word) : (s.setPc t).peek b = s.peek b := rfl
@[simp] theorem reg_setCond (s : State) (c : BitVec 3) (q : Reg) : (s.setCond c).reg q = s.reg q := rfl
@[simp] theorem peek_setCond (s : State) (c : BitVec 3) (b : Word) : (s.setCond c).peek b = s.peek b := rfl
@[simp] theorem reg_clearRunning (s : State) (q : Reg) : (s.clearRunning).reg q = s.reg q := rfl
@[simp] theorem peek_clearRunning (s : State) (b : Word) : (s.clearRunning).peek b = s.peek b := rfl
@[simp] theorem reg_emit (s : State) (e : Event) (q : Reg) : (s.emit e).reg q = s.reg q := rfl
@[simp] theorem peek_emit (s : State) (e : Event) (b : Word) : (s.emit e).peek b = s.peek b := rfl
@[simp] theorem reg_diag (s : State) (k : DiagKind) (w : Word) (q : Reg) : (s.diag k w).reg q = s.reg q := rfl
@[simp] theorem peek_diag (s : State) (k : DiagKind) (w : Word) (b : Word) : (s.diag k w).peek b = s.peek b := rfl
@[simp] theorem reg_afterRead (s : State) (a : Word) (q : Reg) : (s.afterRead a).reg q = s.reg q := rfl
@[simp] theorem reg_memWrite (s : State) (a v : Word) (q : Reg) : (s.memWrite a v).reg q = s.reg q := rfl
@[simp] theorem peek_define (s : State) (dr : Reg) (v : Word) (b : Word) : (s.define dr v).peek b = s.peek b := rfl
@[simp] theorem peek_link (s : State) (b : Word) : (s.link).peek b = s.peek b := rfl
@[simp] theorem reg_withTrace (s : State) (tr : List Event) (q : Reg) : (s.withTrace tr).reg q = s.reg q := rfl
@[simp] theorem peek_withTrace (s : State) (tr : List Event) (b : Word) : (s.withTrace tr).peek b = s.peek b := rfl
@[simp] theorem reg_withRunning (s : State) (b : Bool) (q : Reg) : (s.withRunning b).reg q = s.reg q := rfl
@[simp] theorem peek_withRunning (s : State) (r : Bool) (b : Word) : (s.withRunning r).peek b = s.peek b := rfl
@[simp] theorem reg_arch (s : State) (q : Reg) : (s.arch).reg q = s.reg q := rfl
@[simp] theorem peek_arch (s : State) (b : Word) : (s.arch).peek b = s.peek b := rfl

/-! ### the addresses of an update that leaves their registers alone -/

@[simp] theorem pcRelative_setReg (s : State) (r : Reg) (v : Word) {n : Nat} (off : BitVec n) :
    (s.setReg r v).pcRelative off = s.pcRelative off := rfl
@[simp] theorem basePlus_setPc (s : State) (t : Word) (base : Reg) (off6 : BitVec 6) :
    (s.setPc t).basePlus base off6 = s.basePlus base off6 := rfl
@[simp] theorem pcRelative_setCond (s : State) (c : BitVec 3) {n : Nat} (off : BitVec n) :
    (s.setCond c).pcRelative off = s.pcRelative off := rfl
@[simp] theorem basePlus_setCond (s : State) (c : BitVec 3) (base : Reg) (off6 : BitVec 6) :
    (s.setCond c).basePlus base off6 = s.basePlus base off6 := rfl
@[simp] theorem pcRelative_clearRunning (s : State) {n : Nat} (off : BitVec n) :
    (s.clearRunning).pcRelative off = s.pcRelative off := rfl
@[simp] theorem basePlus_clearRunning (s : State) (base : Reg) (off6 : BitVec 6) :
    (s.clearRunning).basePlus base off6 = s.basePlus base off6 := rfl
@[simp] theorem pcRelative_emit (s : State) (e : Event) {n : Nat} (off : BitVec n) :
    (s.emit e).pcRelative off = s.pcRelative off := rfl
@[simp] theorem basePlus_emit (s : State) (e : Event) (base : Reg) (off6 : BitVec 6) :
    (s.emit e).basePlus base off6 = s.basePlus base off6 := rfl
@[simp] theorem pcRelative_diag (s : State) (k : DiagKind) (w : Word) {n : Nat} (off : BitVec n) :
    (s.diag k w).pcRelative off = s.pcRelative off := rfl
@[simp] theorem basePlus_diag (s : State) (k : DiagKind) (w : Word) (base : Reg) (off6 : BitVec 6) :
    (s.diag k w).basePlus base off6 = s.basePlus base off6 := rfl
@[simp] theorem pcRelative_afterRead (s : State) (a : Word) {n : Nat} (off : BitVec n) :
    (s.afterRead a).pcRelative off = s.pcRelative off := rfl
@[simp] theorem basePlus_afterRead (s : State) (a : Word) (base : Reg) (off6 : BitVec 6) :
    (s.afterRead a).basePlus base off6 = s.basePlus base off6 := rfl
@[simp] theorem pcRelative_memWrite (s : State) (a v : Word) {n : Nat} (off : BitVec n) :
    (s.memWrite a v).pcRelative off = s.pcRelative off := rfl
@[simp] theorem basePlus_memWrite (s : State) (a v : Word) (base : Reg) (off6 : BitVec 6) :
    (s.memWrite a v).basePlus base off6 = s.basePlus base off6 := rfl
@[simp] theorem pcRelative_define (s : State) (dr : Reg) (v : Word) {n : Nat} (off : BitVec n) :
    (s.define dr v).pcRelative off = s.pcRelative off := rfl
@[simp] theorem pcRelative_link (s : State) {n : Nat} (off : BitVec n) :
    (s.link).pcRelative off = s.pcRelative off := rfl
@[simp] theorem pcRelative_withTrace (s : State) (tr : List Event) {n : Nat} (off : BitVec n) :
    (s.withTrace tr).pcRelative off = s.pcRelative off := rfl
@[simp] theorem basePlus_withTrace (s : State) (tr : List Event) (base : Reg) (off6 : BitVec 6) :
    (s.withTrace tr).basePlus base off6 = s.basePlus base off6 := rfl
@[simp] theorem pcRelative_withRunning (s : State) (b : Bool) {n : Nat} (off : BitVec n) :
    (s.withRunning b).pcRelative off = s.pcRelative off := rfl
@[simp] theorem basePlus_withRunning (s : State) (b : Bool) (base : Reg) (off6 : BitVec 6) :
    (s.withRunning b).basePlus base off6 = s.basePlus base off6 := rfl
@[simp] theorem pcRelative_arch (s : State) {n : Nat} (off : BitVec n) :
    (s.arch).pcRelative off = s.pcRelative off := rfl
@[simp] theorem basePlus_arch (s : State) (base : Reg) (off6 : BitVec 6) :
    (s.arch).basePlus base off6 = s.basePlus base off6 := rfl

@[simp] theorem memRead_fst (s : State) (a : Word) : (s.memRead a).1 = s.peek a := rfl
@[simp] theorem memRead_snd (s : State) (a : Word) : (s.memRead a).2 = s.afterRead a := rfl
@[simp] theorem fetch_fst (s : State) : s.fetch.1 = s.peek s.pc := rfl
@[simp] theorem fetch_snd (s : State) : s.fetch.2 = (s.afterRead s.pc).setPc (s.pc + 1#16) := rfl

/-- A state is its fields. -/
theorem State.ext_fields {s t : State} (hx : s.x = t.x) (hpc : s.pc = t.pc) (hc : s.cond = t.cond)
    (hr : s.running = t.running) (hm : s.mem = t.mem) (ht : s.trace = t.trace) : s = t := by
  cases s
  cases t
  simp_all

end Sys2Proof.Machine
end

