-- ==== Sys2Proof/Laws/Ops.lean ====
section
/-! SUPPORT. What each shared operation does, once: registers, memory reads and writes, flags, the walk of PUTS; and that
each keeps the invariant. -/

namespace Sys2Proof.Machine

/-! ## Registers -/

/-- A register after a write of a register. -/
@[simp] theorem reg_setReg (s : State) (r : Reg) (v : Word) (q : Reg) :
    (s.setReg r v).reg q = if q = r then v else s.reg q := by
  simp only [State.reg, State.setReg, Vector.getElem_set]
  by_cases h : q = r
  · simp [h]
  · have hn : r.toNat ≠ q.toNat := fun e => h (BitVec.eq_of_toNat_eq e.symm)
    simp [h, hn]

@[simp] theorem reg_define (s : State) (dr : Reg) (v : Word) (q : Reg) :
    (s.define dr v).reg q = if q = dr then v else s.reg q := reg_setReg s dr v q

@[simp] theorem reg_link (s : State) (q : Reg) :
    s.link.reg q = if q = Config.linkReg then s.pc else s.reg q := reg_setReg s Config.linkReg s.pc q

/-- Two register files that answer every register number alike are equal. -/
theorem x_eq_of_reg_eq {s t : State} (h : ∀ r, s.reg r = t.reg r) : s.x = t.x := by
  apply Vector.ext
  intro i hi
  exact h ⟨i, hi⟩

/-! ## Memory -/

/-- A word after a write: the new one at its address, the old one everywhere else (R34). -/
@[simp] theorem peek_memWrite (s : State) (a v b : Word) :
    (s.memWrite a v).peek b = if b = a then v else s.peek b := by
  simp [State.peek, ← BitVec.toNat_inj]

/-- A word after a read: only the keyboard-status word changes, and only by its own read (R32, R33). -/
@[simp] theorem peek_afterRead (s : State) (a b : Word) :
    (s.afterRead a).peek b = if b = Config.kbsrAddr ∧ a = Config.kbsrAddr then 0#16 else s.peek b := by
  simp only [State.peek, mem_afterRead]
  by_cases ha : a = Config.kbsrAddr
  · simp [ha, ← BitVec.toNat_inj]
  · simp [ha]

@[simp] theorem reg_memWrite_afterRead (s : State) (a p v : Word) (q : Reg) :
    ((s.afterRead a).memWrite p v).reg q = s.reg q := rfl

/-- A read keeps the canonical form. -/
theorem wf_afterRead {s : State} (a : Word) (h : s.mem.wf) : (s.afterRead a).mem.wf := by
  rw [mem_afterRead]
  split
  · exact Memory.wf_write _ _ h (toNat_lt_memWords a)
  · exact h

/-- A write keeps the canonical form. -/
theorem wf_memWrite {s : State} (a v : Word) (h : s.mem.wf) : (s.memWrite a v).mem.wf :=
  Memory.wf_write _ _ h (toNat_lt_memWords a)

/-- A load is the read and then the register-defining write. -/
@[simp] theorem loadInto_eq (s : State) (dr : Reg) (a : Word) :
    s.loadInto dr a = (s.afterRead a).define dr (s.peek a) := rfl

/-! ## Classes of events -/

@[simp] theorem isRead_rd (a v : Word) : (Event.rd a v).isRead = true := rfl
@[simp] theorem isRead_wr (a v : Word) : (Event.wr a v).isRead = false := rfl
@[simp] theorem isRead_out (c : Byte) : (Event.out c).isRead = false := rfl
@[simp] theorem isRead_flush : Event.flush.isRead = false := rfl
@[simp] theorem isRead_diag (k : DiagKind) (w : Word) : (Event.diag k w).isRead = false := rfl
@[simp] theorem isWrite_rd (a v : Word) : (Event.rd a v).isWrite = false := rfl
@[simp] theorem isWrite_wr (a v : Word) : (Event.wr a v).isWrite = true := rfl
@[simp] theorem isWrite_out (c : Byte) : (Event.out c).isWrite = false := rfl
@[simp] theorem isWrite_flush : Event.flush.isWrite = false := rfl
@[simp] theorem isWrite_diag (k : DiagKind) (w : Word) : (Event.diag k w).isWrite = false := rfl
@[simp] theorem isOutput_rd (a v : Word) : (Event.rd a v).isOutput = false := rfl
@[simp] theorem isOutput_wr (a v : Word) : (Event.wr a v).isOutput = false := rfl
@[simp] theorem isOutput_out (c : Byte) : (Event.out c).isOutput = true := rfl
@[simp] theorem isOutput_flush : Event.flush.isOutput = true := rfl
@[simp] theorem isOutput_diag (k : DiagKind) (w : Word) : (Event.diag k w).isOutput = false := rfl
@[simp] theorem isDiag_rd (a v : Word) : (Event.rd a v).isDiag = false := rfl
@[simp] theorem isDiag_wr (a v : Word) : (Event.wr a v).isDiag = false := rfl
@[simp] theorem isDiag_out (c : Byte) : (Event.out c).isDiag = false := rfl
@[simp] theorem isDiag_flush : Event.flush.isDiag = false := rfl
@[simp] theorem isDiag_diag (k : DiagKind) (w : Word) : (Event.diag k w).isDiag = true := rfl

/-! ## Flags -/

/-- The flags of a value are one of the three (R14, R20). -/
theorem oneFlag_setcc (v : Word) : oneFlag (setcc v) := by
  unfold setcc oneFlag
  split
  · simp
  · split <;> simp

/-! ## The walk of PUTS -/

@[simp] theorem stringEvents_nil (a : Word) : stringEvents a [] = [] := rfl

@[simp] theorem stringEvents_cons (a w : Word) (ws : List Word) :
    stringEvents a (w :: ws) = .rd a w :: .out (charOf w) :: stringEvents (a + 1#16) ws := rfl

theorem putsWalk_zero (a : Word) (s : State) : putsWalk 0 a s = none := rfl

/-- The walk at a zero word: one read and nothing more. -/
theorem putsWalk_of_zero (n : Nat) (a : Word) (s : State) (h : s.peek a = 0#16) :
    putsWalk (n + 1) a s = some (s.afterRead a) := by
  simp [putsWalk, h]

/-- The walk at another word: one read, one character, and the walk from the next address on. -/
theorem putsWalk_of_ne_zero (n : Nat) (a : Word) (s : State) (h : s.peek a ≠ 0#16) :
    putsWalk (n + 1) a s = putsWalk n (a + 1#16) ((s.afterRead a).emit (.out (charOf (s.peek a)))) := by
  simp [putsWalk, h]

/-- A property that a read and a character keep holds at the end of a walk if it holds at its start. -/
theorem putsWalk_keeps {P : State → Prop} (hrd : ∀ s a, P s → P (s.afterRead a))
    (hout : ∀ s c, P s → P (s.emit (.out c))) {n : Nat} {a : Word} {s t : State}
    (h : putsWalk n a s = some t) (hs : P s) : P t := by
  induction n generalizing a s with
  | zero => simp [putsWalk_zero] at h
  | succ n ih =>
    by_cases hz : s.peek a = 0#16
    · rw [putsWalk_of_zero n a s hz, Option.some_inj] at h
      exact h ▸ hrd s a hs
    · rw [putsWalk_of_ne_zero n a s hz] at h
      exact ih h (hout _ _ (hrd s a hs))

end Sys2Proof.Machine
end

