-- ==== Sys2Proof/Laws/Exec.lean ====
section
/-! SUPPORT. What each instruction answers, as an equation over the shared operations: the meanings are cited through
these and not unfolded again. PUTS has an equation for each way its walk can end. -/

namespace Sys2Proof.Machine

@[simp] theorem exec_br (mask : BitVec 3) (off9 : BitVec 9) (s : State) :
    exec (.br mask off9) s = .next (if mask &&& s.cond ≠ 0#3 then s.setPc (s.pcRelative off9) else s) := rfl

@[simp] theorem exec_addReg (dr sr1 : Reg) (ign : BitVec 2) (sr2 : Reg) (s : State) :
    exec (.addReg dr sr1 ign sr2) s = .next (s.define dr (s.reg sr1 + s.reg sr2)) := rfl

@[simp] theorem exec_addImm (dr sr1 : Reg) (imm5 : BitVec 5) (s : State) :
    exec (.addImm dr sr1 imm5) s = .next (s.define dr (s.reg sr1 + sext imm5)) := rfl

@[simp] theorem exec_ld (dr : Reg) (off9 : BitVec 9) (s : State) :
    exec (.ld dr off9) s =
      .next ((s.afterRead (s.pcRelative off9)).define dr (s.peek (s.pcRelative off9))) := rfl

@[simp] theorem exec_st (sr : Reg) (off9 : BitVec 9) (s : State) :
    exec (.st sr off9) s = .next (s.memWrite (s.pcRelative off9) (s.reg sr)) := rfl

@[simp] theorem exec_jsr (off11 : BitVec 11) (s : State) :
    exec (.jsr off11) s = .next (s.link.setPc (s.pcRelative off11)) := rfl

@[simp] theorem exec_jsrr (hi : BitVec 2) (base : Reg) (lo : BitVec 6) (s : State) :
    exec (.jsrr hi base lo) s = .next (s.link.setPc (s.link.reg base)) := rfl

@[simp] theorem exec_andReg (dr sr1 : Reg) (ign : BitVec 2) (sr2 : Reg) (s : State) :
    exec (.andReg dr sr1 ign sr2) s = .next (s.define dr (s.reg sr1 &&& s.reg sr2)) := rfl

@[simp] theorem exec_andImm (dr sr1 : Reg) (imm5 : BitVec 5) (s : State) :
    exec (.andImm dr sr1 imm5) s = .next (s.define dr (s.reg sr1 &&& sext imm5)) := rfl

@[simp] theorem exec_ldr (dr base : Reg) (off6 : BitVec 6) (s : State) :
    exec (.ldr dr base off6) s =
      .next ((s.afterRead (s.basePlus base off6)).define dr (s.peek (s.basePlus base off6))) := rfl

@[simp] theorem exec_str (sr base : Reg) (off6 : BitVec 6) (s : State) :
    exec (.str sr base off6) s = .next (s.memWrite (s.basePlus base off6) (s.reg sr)) := rfl

@[simp] theorem exec_rti (ign : BitVec 12) (s : State) :
    exec (.rti ign) s = .next (s.diag .unknownOpcode (encode (.rti ign))) := rfl

@[simp] theorem exec_notReg (dr sr : Reg) (ign : BitVec 6) (s : State) :
    exec (.notReg dr sr ign) s = .next (s.define dr (~~~s.reg sr)) := rfl

@[simp] theorem exec_ldi (dr : Reg) (off9 : BitVec 9) (s : State) :
    exec (.ldi dr off9) s =
      .next (((s.afterRead (s.pcRelative off9)).afterRead (s.peek (s.pcRelative off9))).define dr
        ((s.afterRead (s.pcRelative off9)).peek (s.peek (s.pcRelative off9)))) := rfl

@[simp] theorem exec_sti (sr : Reg) (off9 : BitVec 9) (s : State) :
    exec (.sti sr off9) s =
      .next ((s.afterRead (s.pcRelative off9)).memWrite (s.peek (s.pcRelative off9)) (s.reg sr)) := rfl

@[simp] theorem exec_jmp (hi : BitVec 3) (base : Reg) (lo : BitVec 6) (s : State) :
    exec (.jmp hi base lo) s = .next (s.setPc (s.reg base)) := rfl

@[simp] theorem exec_res (ign : BitVec 12) (s : State) :
    exec (.res ign) s = .next (s.diag .unknownOpcode (encode (.res ign))) := rfl

@[simp] theorem exec_lea (dr : Reg) (off9 : BitVec 9) (s : State) :
    exec (.lea dr off9) s = .next (s.define dr (s.pcRelative off9)) := rfl

@[simp] theorem exec_getc (ign : BitVec 4) (s : State) :
    exec (.getc ign) s = .next (s.diag .unimplementedTrap (encode (.getc ign))) := rfl

@[simp] theorem exec_out (ign : BitVec 4) (s : State) :
    exec (.out ign) s = .next (s.diag .unimplementedTrap (encode (.out ign))) := rfl

@[simp] theorem exec_inp (ign : BitVec 4) (s : State) :
    exec (.inp ign) s = .next (s.diag .unimplementedTrap (encode (.inp ign))) := rfl

@[simp] theorem exec_putsp (ign : BitVec 4) (s : State) :
    exec (.putsp ign) s = .next (s.diag .unimplementedTrap (encode (.putsp ign))) := rfl

@[simp] theorem exec_halt (ign : BitVec 4) (s : State) : exec (.halt ign) s = .next s.clearRunning := rfl

@[simp] theorem exec_trap (ign : BitVec 4) (vect : BitVec 8) (s : State) :
    exec (.trap ign vect) s = .next (s.diag .unknownTrapVector (encode (.trap ign vect))) := rfl

theorem exec_puts_of_walk {ign : BitVec 4} {s t : State}
    (h : putsWalk Config.putsMaxReads (s.reg Config.stringReg) s = some t) :
    exec (.puts ign) s = .next (t.emit .flush) := by
  simp only [exec, execPuts, h]

/-- If PUTS answers a next state, it is the end of its walk with a flush. -/
theorem exec_puts_next {ign : BitVec 4} {s t : State} (h : exec (.puts ign) s = .next t) :
    ∃ u, putsWalk Config.putsMaxReads (s.reg Config.stringReg) s = some u ∧ t = u.emit .flush := by
  simp only [exec, execPuts] at h
  cases hw : putsWalk Config.putsMaxReads (s.reg Config.stringReg) s with
  | none => simp [hw] at h
  | some u =>
    simp only [hw, Host.Outcome.next.injEq] at h
    exact ⟨u, rfl, h.symm⟩

/-- A property that every named operation keeps is kept by every instruction that answers a next state. -/
theorem exec_keeps {P : State → Prop} (hreg : ∀ s r v, P s → P (s.setReg r v))
    (hdef : ∀ s r v, P s → P (s.define r v)) (hpc : ∀ s v, P s → P (s.setPc v))
    (hrun : ∀ s, P s → P s.clearRunning) (hemit : ∀ s e, P s → P (s.emit e))
    (hrd : ∀ s a, P s → P (s.afterRead a)) (hwr : ∀ s a v, P s → P (s.memWrite a v))
    {i : Instr} {s t : State} (h : exec i s = .next t) (hs : P s) : P t := by
  cases i with
  | puts ign =>
    obtain ⟨u, hu, rfl⟩ := exec_puts_next h
    exact hemit _ _ (putsWalk_keeps hrd (fun s c => hemit s _) hu hs)
  | br mask off9 =>
    simp only [exec_br, Host.Outcome.next.injEq] at h
    subst h
    split
    · exact hpc _ _ hs
    · exact hs
  | addReg dr sr1 ign sr2 => cases h; exact hdef _ _ _ hs
  | addImm dr sr1 imm5 => cases h; exact hdef _ _ _ hs
  | andReg dr sr1 ign sr2 => cases h; exact hdef _ _ _ hs
  | andImm dr sr1 imm5 => cases h; exact hdef _ _ _ hs
  | notReg dr sr ign => cases h; exact hdef _ _ _ hs
  | ld dr off9 => cases h; exact hdef _ _ _ (hrd _ _ hs)
  | ldr dr base off6 => cases h; exact hdef _ _ _ (hrd _ _ hs)
  | ldi dr off9 => cases h; exact hdef _ _ _ (hrd _ _ (hrd _ _ hs))
  | lea dr off9 => cases h; exact hdef _ _ _ hs
  | st sr off9 => cases h; exact hwr _ _ _ hs
  | str sr base off6 => cases h; exact hwr _ _ _ hs
  | sti sr off9 => cases h; exact hwr _ _ _ (hrd _ _ hs)
  | jsr off11 => cases h; exact hpc _ _ (hreg _ _ _ hs)
  | jsrr hi base lo => cases h; exact hpc _ _ (hreg _ _ _ hs)
  | jmp hi base lo => cases h; exact hpc _ _ hs
  | halt ign => cases h; exact hrun _ hs
  | rti ign => cases h; exact hemit _ _ hs
  | res ign => cases h; exact hemit _ _ hs
  | getc ign => cases h; exact hemit _ _ hs
  | out ign => cases h; exact hemit _ _ hs
  | inp ign => cases h; exact hemit _ _ hs
  | putsp ign => cases h; exact hemit _ _ hs
  | trap ign vect => cases h; exact hemit _ _ hs

/-! ## The step -/

/-- A step of a running machine is the fetch and then the instruction read (R62). -/
theorem step_of_running {s : State} (h : s.running = true) :
    step s = exec (decode (s.peek s.pc)) ((s.afterRead s.pc).setPc (s.pc + 1#16)) := by
  simp [step, h]

/-- A step of a halted machine is nothing (R176). -/
theorem step_of_halted {s : State} (h : s.running = false) : step s = .next s := by
  simp [step, h]

/-- A run of k + 1 steps is a step and a run of k. -/
theorem run_succ {s t : State} (k : Nat) (h : step s = .next t) :
    Host.Core.run Sys2Proof.core (k + 1) s = Host.Core.run Sys2Proof.core k t := by
  have hs : Sys2Proof.core.step s = .next t := h
  simp only [Host.Core.run, hs]

end Sys2Proof.Machine
end

