-- ==== Sys2Proof/Laws/PerInstr.lean ====
section
/-! SUPPORT. The per-instruction family TableRow: the word `encode` gives for an instruction is taken by the
instruction's own row of the opcode table, whatever the operands and the ignored bits. -/

namespace Sys2Proof.Laws.TableRow

/-- The encoded word meets the mask and the pattern of the instruction's row. -/
def Statement (i : Instr) : Prop := ((opcodeTable[i.row]?).map (fun r => r.takes (encode i))) = some true

/-- A word meets a mask and a pattern when it does so bit by bit. -/
theorem and_eq_of_bits {w m p : Word} (h : ∀ k, k < 16 → (w.getLsbD k && m.getLsbD k) = p.getLsbD k) :
    (w &&& m == p) = true := by
  rw [beq_iff_eq]
  refine BitVec.eq_of_getLsbD_eq fun k hk => ?_
  rw [BitVec.getLsbD_and]
  exact h k hk

theorem br (mask : BitVec 3) (off9 : BitVec 9) : Statement (.br mask off9) := by
  refine congrArg some (and_eq_of_bits fun k hk => ?_)
  simp only [encode, BitVec.getLsbD_append]
  interval_cases k <;> simp

theorem addReg (dr sr1 : Reg) (ign : BitVec 2) (sr2 : Reg) : Statement (.addReg dr sr1 ign sr2) := by
  refine congrArg some (and_eq_of_bits fun k hk => ?_)
  simp only [encode, BitVec.getLsbD_append]
  interval_cases k <;> simp

theorem addImm (dr sr1 : Reg) (imm5 : BitVec 5) : Statement (.addImm dr sr1 imm5) := by
  refine congrArg some (and_eq_of_bits fun k hk => ?_)
  simp only [encode, BitVec.getLsbD_append]
  interval_cases k <;> simp

theorem ld (dr : Reg) (off9 : BitVec 9) : Statement (.ld dr off9) := by
  refine congrArg some (and_eq_of_bits fun k hk => ?_)
  simp only [encode, BitVec.getLsbD_append]
  interval_cases k <;> simp

theorem st (sr : Reg) (off9 : BitVec 9) : Statement (.st sr off9) := by
  refine congrArg some (and_eq_of_bits fun k hk => ?_)
  simp only [encode, BitVec.getLsbD_append]
  interval_cases k <;> simp

theorem jsr (off11 : BitVec 11) : Statement (.jsr off11) := by
  refine congrArg some (and_eq_of_bits fun k hk => ?_)
  simp only [encode, BitVec.getLsbD_append]
  interval_cases k <;> simp

theorem jsrr (ignHi : BitVec 2) (base : Reg) (ignLo : BitVec 6) : Statement (.jsrr ignHi base ignLo) := by
  refine congrArg some (and_eq_of_bits fun k hk => ?_)
  simp only [encode, BitVec.getLsbD_append]
  interval_cases k <;> simp

theorem andReg (dr sr1 : Reg) (ign : BitVec 2) (sr2 : Reg) : Statement (.andReg dr sr1 ign sr2) := by
  refine congrArg some (and_eq_of_bits fun k hk => ?_)
  simp only [encode, BitVec.getLsbD_append]
  interval_cases k <;> simp

theorem andImm (dr sr1 : Reg) (imm5 : BitVec 5) : Statement (.andImm dr sr1 imm5) := by
  refine congrArg some (and_eq_of_bits fun k hk => ?_)
  simp only [encode, BitVec.getLsbD_append]
  interval_cases k <;> simp

theorem ldr (dr base : Reg) (off6 : BitVec 6) : Statement (.ldr dr base off6) := by
  refine congrArg some (and_eq_of_bits fun k hk => ?_)
  simp only [encode, BitVec.getLsbD_append]
  interval_cases k <;> simp

theorem str (sr base : Reg) (off6 : BitVec 6) : Statement (.str sr base off6) := by
  refine congrArg some (and_eq_of_bits fun k hk => ?_)
  simp only [encode, BitVec.getLsbD_append]
  interval_cases k <;> simp

theorem rti (ign : BitVec 12) : Statement (.rti ign) := by
  refine congrArg some (and_eq_of_bits fun k hk => ?_)
  simp only [encode, BitVec.getLsbD_append]
  interval_cases k <;> simp

theorem notReg (dr sr : Reg) (ign : BitVec 6) : Statement (.notReg dr sr ign) := by
  refine congrArg some (and_eq_of_bits fun k hk => ?_)
  simp only [encode, BitVec.getLsbD_append]
  interval_cases k <;> simp

theorem ldi (dr : Reg) (off9 : BitVec 9) : Statement (.ldi dr off9) := by
  refine congrArg some (and_eq_of_bits fun k hk => ?_)
  simp only [encode, BitVec.getLsbD_append]
  interval_cases k <;> simp

theorem sti (sr : Reg) (off9 : BitVec 9) : Statement (.sti sr off9) := by
  refine congrArg some (and_eq_of_bits fun k hk => ?_)
  simp only [encode, BitVec.getLsbD_append]
  interval_cases k <;> simp

theorem jmp (ignHi : BitVec 3) (base : Reg) (ignLo : BitVec 6) : Statement (.jmp ignHi base ignLo) := by
  refine congrArg some (and_eq_of_bits fun k hk => ?_)
  simp only [encode, BitVec.getLsbD_append]
  interval_cases k <;> simp

theorem res (ign : BitVec 12) : Statement (.res ign) := by
  refine congrArg some (and_eq_of_bits fun k hk => ?_)
  simp only [encode, BitVec.getLsbD_append]
  interval_cases k <;> simp

theorem lea (dr : Reg) (off9 : BitVec 9) : Statement (.lea dr off9) := by
  refine congrArg some (and_eq_of_bits fun k hk => ?_)
  simp only [encode, BitVec.getLsbD_append]
  interval_cases k <;> simp

theorem getc (ign : BitVec 4) : Statement (.getc ign) := by
  refine congrArg some (and_eq_of_bits fun k hk => ?_)
  simp only [encode, BitVec.getLsbD_append]
  interval_cases k <;> simp [Config.vecGetc]

theorem out (ign : BitVec 4) : Statement (.out ign) := by
  refine congrArg some (and_eq_of_bits fun k hk => ?_)
  simp only [encode, BitVec.getLsbD_append]
  interval_cases k <;> simp [Config.vecOut]

theorem puts (ign : BitVec 4) : Statement (.puts ign) := by
  refine congrArg some (and_eq_of_bits fun k hk => ?_)
  simp only [encode, BitVec.getLsbD_append]
  interval_cases k <;> simp [Config.vecPuts]

theorem inp (ign : BitVec 4) : Statement (.inp ign) := by
  refine congrArg some (and_eq_of_bits fun k hk => ?_)
  simp only [encode, BitVec.getLsbD_append]
  interval_cases k <;> simp [Config.vecIn]

theorem putsp (ign : BitVec 4) : Statement (.putsp ign) := by
  refine congrArg some (and_eq_of_bits fun k hk => ?_)
  simp only [encode, BitVec.getLsbD_append]
  interval_cases k <;> simp [Config.vecPutsp]

theorem halt (ign : BitVec 4) : Statement (.halt ign) := by
  refine congrArg some (and_eq_of_bits fun k hk => ?_)
  simp only [encode, BitVec.getLsbD_append]
  interval_cases k <;> simp [Config.vecHalt]

theorem trap (ign : BitVec 4) (vect : BitVec 8) : Statement (.trap ign vect) := by
  refine congrArg some (and_eq_of_bits fun k hk => ?_)
  simp only [encode, BitVec.getLsbD_append]
  interval_cases k <;> simp

end Sys2Proof.Laws.TableRow
end

