-- ==== Sys2Proof/Tests/Slice0.lean ====
section
/-! SUPPORT. The model's own tests. Expected results are copied from the spec, not from the model: words from the
formats of R51 and R57, vectors from 95_test_vectors.md (the part is named at each group). The last part gives, for each
statement with hypotheses, a concrete instance that meets them all. -/

namespace Sys2Proof.Tests

open Machine

/-! ## Helpers -/

/-- A reset machine with another pc, other flags, and some registers and memory words set. -/
def machine (pc : Word) (cond : BitVec 3) (regs : List (Reg × Word)) (cells : List (Word × Word)) : State :=
  regs.foldl (fun s r => s.setReg r.1 r.2)
    { State.reset with pc := pc, cond := cond, mem := cells.foldl (fun m c => m.write c.1.toNat c.2) [] }

/-- What a test looks at: one register, pc, the flags, `running`, and the events after the fetch. -/
structure View where
  reg     : Word
  pc      : Word
  cond    : BitVec 3
  running : Bool
  events  : List Event
  deriving DecidableEq, Repr

/-- The state one step reaches with a word placed at the machine's pc. -/
def after (w : Nat) (s : State) : Option State :=
  match step (s.withFetchWord 16 w) with
  | .next t => some t
  | .fault _ => none
  | .refused _ => none

/-- The view of one register after one step of a word at the machine's pc. -/
def seen (r : Reg) (w : Nat) (s : State) : Option View :=
  (after w s).map fun t => ⟨t.reg r, t.pc, t.cond, t.running, t.trace.drop 1⟩

/-- The words at some addresses after one step of a word at the machine's pc. -/
def words (w : Nat) (s : State) (as : List Word) : Option (List Word) := (after w s).map fun t => as.map t.peek

/-! ## Well-formedness: the row for vectors without a routine holds none of the six named ones (R57, R121) -/

theorem test_trap_x20_illFormed : (Instr.trap 0 0x20).wellFormed = false := by decide
theorem test_trap_x21_illFormed : (Instr.trap 0 0x21).wellFormed = false := by decide
theorem test_trap_x22_illFormed : (Instr.trap 0 0x22).wellFormed = false := by decide
theorem test_trap_x23_illFormed : (Instr.trap 0 0x23).wellFormed = false := by decide
theorem test_trap_x24_illFormed : (Instr.trap 0 0x24).wellFormed = false := by decide
theorem test_trap_x25_illFormed : (Instr.trap 0 0x25).wellFormed = false := by decide

/-! ## Decoding: one word of each row, written out field by field from R51 -/

theorem test_decode_br : decode 0b0000_101_100000001#16 = .br 0b101 0b100000001 := by decide
theorem test_decode_addReg : decode 0b0001_001_010_0_00_011#16 = .addReg 1 2 0 3 := by decide
theorem test_decode_addImm : decode 0b0001_110_101_1_10010#16 = .addImm 6 5 0b10010 := by decide
theorem test_decode_ld : decode 0b0010_011_010000001#16 = .ld 3 0b010000001 := by decide
theorem test_decode_st : decode 0b0011_100_110000001#16 = .st 4 0b110000001 := by decide
theorem test_decode_jsr : decode 0b0100_1_10000000001#16 = .jsr 0b10000000001 := by decide
theorem test_decode_jsrr : decode 0b0100_0_01_110_100001#16 = .jsrr 0b01 6 0b100001 := by decide
theorem test_decode_andReg : decode 0b0101_100_001_0_10_110#16 = .andReg 4 1 0b10 6 := by decide
theorem test_decode_andImm : decode 0b0101_001_110_1_01101#16 = .andImm 1 6 0b01101 := by decide
theorem test_decode_ldr : decode 0b0110_100_101_111110#16 = .ldr 4 5 0b111110 := by decide
theorem test_decode_str : decode 0b0111_001_010_000011#16 = .str 1 2 0b000011 := by decide
theorem test_decode_rti : decode 0b1000_100000000001#16 = .rti 0b100000000001 := by decide
theorem test_decode_notReg : decode 0b1001_001_011_111111#16 = .notReg 1 3 0b111111 := by decide
theorem test_decode_ldi : decode 0b1010_011_000000010#16 = .ldi 3 0b000000010 := by decide
theorem test_decode_sti : decode 0b1011_110_100000010#16 = .sti 6 0b100000010 := by decide
theorem test_decode_jmp : decode 0b1100_000_111_000000#16 = .jmp 0 7 0 := by decide
theorem test_decode_res : decode 0b1101_101010111100#16 = .res 0b101010111100 := by decide
theorem test_decode_lea : decode 0b1110_101_011111111#16 = .lea 5 0b011111111 := by decide
theorem test_decode_getc : decode 0b1111_0001_00100000#16 = .getc 0b0001 := by decide
theorem test_decode_out : decode 0b1111_0010_00100001#16 = .out 0b0010 := by decide
theorem test_decode_puts : decode 0b1111_0100_00100010#16 = .puts 0b0100 := by decide
theorem test_decode_inp : decode 0b1111_1000_00100011#16 = .inp 0b1000 := by decide
theorem test_decode_putsp : decode 0b1111_0000_00100100#16 = .putsp 0 := by decide
theorem test_decode_halt : decode 0b1111_1010_00100101#16 = .halt 0b1010 := by decide
theorem test_decode_trap : decode 0b1111_1111_00100110#16 = .trap 0b1111 0x26 := by decide

/-- The words of R65: RET is C1C0 and NOP is 0000. -/
theorem test_ret_nop : encode .ret = 0xC1C0#16 ∧ encode .nop = 0x0000#16 := by decide

/-! ## One step, vectors of 95_test_vectors.md part 2.1 -/

theorem test_addReg_wraps : seen 1 0x1283 (machine 0x3000 0b001 [(2, 0xFFFF), (3, 1)] []) =
    some ⟨0x0000, 0x3001, 0b010, true, []⟩ := by decide
theorem test_addReg_source_is_destination : seen 2 0x1482 (machine 0x3000 0b010 [(2, 0x4001)] []) =
    some ⟨0x8002, 0x3001, 0b100, true, []⟩ := by decide
theorem test_addImm_lowest : seen 1 0x1230 (machine 0x3000 0b100 [(0, 0x0010)] []) =
    some ⟨0x0000, 0x3001, 0b010, true, []⟩ := by decide
theorem test_addImm_borrows : seen 0 0x103F (machine 0x3000 0b010 [(0, 0x0000)] []) =
    some ⟨0xFFFF, 0x3001, 0b100, true, []⟩ := by decide
theorem test_andReg : seen 4 0x5946 (machine 0x3000 0b010 [(5, 0xFF0F), (6, 0x8F33)] []) =
    some ⟨0x8F03, 0x3001, 0b100, true, []⟩ := by decide
theorem test_andImm_sign_extends : seen 2 0x54F0 (machine 0x3000 0b010 [(3, 0x1234)] []) =
    some ⟨0x1230, 0x3001, 0b001, true, []⟩ := by decide
theorem test_not : seen 0 0x91FF (machine 0x3000 0b010 [(7, 0x1234)] []) =
    some ⟨0xEDCB, 0x3001, 0b100, true, []⟩ := by decide
theorem test_not_ignored_bits : seen 1 0x9240 (machine 0x3000 0b010 [(1, 0x00FF)] []) =
    some ⟨0xFF00, 0x3001, 0b100, true, []⟩ := by decide

/-! ## Part 2.2 -/

theorem test_br_taken_wraps : seen 0 0x0FFE (machine 0x0000 0b010 [] []) =
    some ⟨0, 0xFFFF, 0b010, true, []⟩ := by decide
theorem test_br_not_taken : seen 0 0x0A05 (machine 0x3000 0b010 [] []) =
    some ⟨0, 0x3001, 0b010, true, []⟩ := by decide
theorem test_jmp_ignored_bits : seen 7 0xCE3F (machine 0x3000 0b010 [(0, 0xABCD)] []) =
    some ⟨0, 0xABCD, 0b010, true, []⟩ := by decide
theorem test_jsr_backward : seen 7 0x4C00 (machine 0x3000 0b010 [] []) =
    some ⟨0x3001, 0x2C01, 0b010, true, []⟩ := by decide
theorem test_jsr_keeps_flags : seen 7 0x4810 (machine 0x3000 0b100 [(7, 0x1111)] []) =
    some ⟨0x3001, 0x3011, 0b100, true, []⟩ := by decide
theorem test_jsrr : seen 7 0x46FF (machine 0x3000 0b010 [(3, 0x5000)] []) =
    some ⟨0x3001, 0x5000, 0b010, true, []⟩ := by decide
theorem test_jsrr_R7_falls_through : seen 7 0x41C0 (machine 0x3000 0b010 [(7, 0x5000)] []) =
    some ⟨0x3001, 0x3001, 0b010, true, []⟩ := by decide

/-! ## Part 2.3 -/

theorem test_ld : seen 2 0x2405 (machine 0x3000 0b010 [] [(0x3006, 0xBEEF)]) =
    some ⟨0xBEEF, 0x3001, 0b100, true, [.rd 0x3006 0xBEEF]⟩ := by decide
theorem test_ld_clears_keyboard_status :
    words 0x2FFE (machine 0xFE01 0b010 [] [(0xFE00, 0x8000)]) [0xFE00, 0xFE01] = some [0x0000, 0x2FFE] := by decide
theorem test_ldi : seen 3 0xA602 (machine 0x3000 0b010 [] [(0x3003, 0x4000), (0x4000, 0x0042)]) =
    some ⟨0x0042, 0x3001, 0b001, true, [.rd 0x3003 0x4000, .rd 0x4000 0x0042]⟩ := by decide
theorem test_ldi_pointer_to_itself : seen 3 0xA7FE (machine 0xFE01 0b001 [] [(0xFE00, 0xFE00)]) =
    some ⟨0x0000, 0xFE02, 0b010, true, [.rd 0xFE00 0xFE00, .rd 0xFE00 0x0000]⟩ := by decide
theorem test_ldr_negative_offset : seen 1 0x63A0 (machine 0x3000 0b010 [(6, 0x4000)] [(0x3FE0, 0x8001)]) =
    some ⟨0x8001, 0x3001, 0b100, true, [.rd 0x3FE0 0x8001]⟩ := by decide
theorem test_ldr_base_is_destination : seen 0 0x6000 (machine 0x3000 0b010 [(0, 0x4000)] [(0x4000, 0x9999)]) =
    some ⟨0x9999, 0x3001, 0b100, true, [.rd 0x4000 0x9999]⟩ := by decide
theorem test_lea_reads_nothing : seen 0 0xE1FE (machine 0xFE01 0b010 [] [(0xFE00, 0x1111)]) =
    some ⟨0xFE00, 0xFE02, 0b100, true, []⟩ := by decide
theorem test_lea_wraps : seen 0 0xE000 (machine 0xFFFF 0b001 [] []) =
    some ⟨0x0000, 0x0000, 0b010, true, []⟩ := by decide
theorem test_st : seen 3 0x3604 (machine 0x3000 0b100 [(3, 0x1234)] []) =
    some ⟨0x1234, 0x3001, 0b100, true, [.wr 0x3005 0x1234]⟩ := by decide
theorem test_st_to_keyboard_status :
    words 0x3FFE (machine 0xFE01 0b010 [(7, 0x8000)] []) [0xFE00] = some [0x8000] := by decide
theorem test_sti : seen 2 0xB401 (machine 0x3000 0b010 [(2, 0x00AA)] [(0x3002, 0x5000)]) =
    some ⟨0x00AA, 0x3001, 0b010, true, [.rd 0x3002 0x5000, .wr 0x5000 0x00AA]⟩ := by decide
theorem test_sti_clears_pointer_at_keyboard_status :
    words 0xB5FE (machine 0xFE01 0b010 [(2, 0x00AA)] [(0xFE00, 0x6000)]) [0x6000, 0xFE00] =
      some [0x00AA, 0x0000] := by decide
theorem test_str_wraps : seen 7 0x7FBF (machine 0x3000 0b010 [(6, 0), (7, 0x3002)] []) =
    some ⟨0x3002, 0x3001, 0b010, true, [.wr 0xFFFF 0x3002]⟩ := by decide
theorem test_str_base_is_source : words 0x7480 (machine 0x3000 0b010 [(2, 0x4000)] []) [0x4000] =
    some [0x4000] := by decide

/-! ## Parts 2.4 and 2.5 -/

theorem test_puts_Hi : seen 0 0xF022 (machine 0x3000 0b010 [(0, 0x4000)] [(0x4000, 0x0048), (0x4001, 0x0069)]) =
    some ⟨0x4000, 0x3001, 0b010, true,
      [.rd 0x4000 0x0048, .out 0x48, .rd 0x4001 0x0069, .out 0x69, .rd 0x4002 0x0000, .flush]⟩ := by decide
theorem test_puts_across_keyboard_status :
    words 0xF022 (machine 0x3000 0b010 [(0, 0xFDFF)] [(0xFDFF, 0x0041), (0xFE00, 0x0042)]) [0xFDFF, 0xFE00] =
      some [0x0041, 0x0000] := by decide
theorem test_getc : seen 0 0xF020 (machine 0x3000 0b010 [(0, 0x1234)] []) =
    some ⟨0x1234, 0x3001, 0b010, true, [.diag .unimplementedTrap 0xF020]⟩ := by decide
theorem test_out_emits_no_character : seen 0 0xF021 (machine 0x3000 0b010 [(0, 0x0041)] []) =
    some ⟨0x0041, 0x3001, 0b010, true, [.diag .unimplementedTrap 0xF021]⟩ := by decide
theorem test_in : seen 0 0xF023 (machine 0x3000 0b010 [] []) =
    some ⟨0, 0x3001, 0b010, true, [.diag .unimplementedTrap 0xF023]⟩ := by decide
theorem test_putsp : seen 0 0xF024 (machine 0x3000 0b010 [] []) =
    some ⟨0, 0x3001, 0b010, true, [.diag .unimplementedTrap 0xF024]⟩ := by decide
theorem test_halt : seen 7 0xFA25 (machine 0x3000 0b001 [] []) = some ⟨0, 0x3001, 0b001, false, []⟩ := by decide
theorem test_trap_x1F : seen 7 0xF01F (machine 0x3000 0b010 [] []) =
    some ⟨0, 0x3001, 0b010, true, [.diag .unknownTrapVector 0xF01F]⟩ := by decide
theorem test_trap_xFF_ignored_bits : seen 7 0xFFFF (machine 0x3000 0b010 [] []) =
    some ⟨0, 0x3001, 0b010, true, [.diag .unknownTrapVector 0xFFFF]⟩ := by decide
theorem test_rti : seen 7 0x8FFF (machine 0x3000 0b100 [] []) =
    some ⟨0, 0x3001, 0b100, true, [.diag .unknownOpcode 0x8FFF]⟩ := by decide
theorem test_res : seen 7 0xDABC (machine 0x3000 0b010 [] []) =
    some ⟨0, 0x3001, 0b010, true, [.diag .unknownOpcode 0xDABC]⟩ := by decide

/-! ## Parts 2.6 and 2.7 -/

theorem test_fetch_clears_keyboard_status :
    (after 0x1234 (machine 0xFE00 0b010 [] [])).map (fun t => (t.reg 1, t.peek 0xFE00, t.trace)) =
      some (0xFFF4, 0x0000, [.rd 0xFE00 0x1234]) := by decide
theorem test_step_while_halted :
    step { machine 0xFE00 0b010 [] [(0xFE00, 0x8000)] with running := false } =
      .next { machine 0xFE00 0b010 [] [(0xFE00, 0x8000)] with running := false } := by rfl
theorem test_image : (boot (some [0x30, 0x00, 0x12, 0x34, 0x56, 0x78])).1.mem =
    [(0x3000, 0x1234), (0x3001, 0x5678)] := by decide
theorem test_image_top : boot (some [0xFF, 0xFE, 0xAA, 0xAA, 0xBB, 0xBB, 0xCC, 0xCC]) =
    ({ State.reset with mem := [(0xFFFE, 0xAAAA), (0xFFFF, 0xBBBB)] }, ⟨true, true⟩) := by decide
theorem test_image_odd_byte : (boot (some [0x30, 0x00, 0x12, 0x34, 0x56])).1.mem = [(0x3000, 0x1234)] := by decide

/-- Words are stored in rising order, and storing zero removes an entry. -/
theorem test_memory_form : (machine 0 0b010 [] [(0x4000, 1), (0x3000, 2), (0x4000, 0), (0xFFFF, 3)]).mem =
    [(0x3000, 2), (0xFFFF, 3)] := by decide

/-! ## Witnesses: for each statement with hypotheses, an instance that meets them all, each clause at an edge -/

theorem witness_DecodeOfEncodeIsTheInstruction :
    (Instr.trap 0xF 0x1F).wellFormed = true ∧ (Instr.trap 0 0x26).wellFormed = true ∧
      (Instr.notReg 7 7 0x3F).wellFormed = true := by decide

/-- A word under each mask of the table: the pattern with every other bit 1 (for the last row, the two vectors next to
the named ones and the two ends). -/
theorem witness_DecoderReadsEachFieldAtItsBits :
    (0x0FFF#16 &&& 0xF000#16 = 0x0000#16) ∧ (0x1FDF#16 &&& 0xF020#16 = 0x1000#16) ∧
    (0x1FFF#16 &&& 0xF020#16 = 0x1020#16) ∧ (0x2FFF#16 &&& 0xF000#16 = 0x2000#16) ∧
    (0x3FFF#16 &&& 0xF000#16 = 0x3000#16) ∧ (0x4FFF#16 &&& 0xF800#16 = 0x4800#16) ∧
    (0x47FF#16 &&& 0xF800#16 = 0x4000#16) ∧ (0x5FDF#16 &&& 0xF020#16 = 0x5000#16) ∧
    (0x5FFF#16 &&& 0xF020#16 = 0x5020#16) ∧ (0x6FFF#16 &&& 0xF000#16 = 0x6000#16) ∧
    (0x7FFF#16 &&& 0xF000#16 = 0x7000#16) ∧ (0x8FFF#16 &&& 0xF000#16 = 0x8000#16) ∧
    (0x9FFF#16 &&& 0xF000#16 = 0x9000#16) ∧ (0xAFFF#16 &&& 0xF000#16 = 0xA000#16) ∧
    (0xBFFF#16 &&& 0xF000#16 = 0xB000#16) ∧ (0xCFFF#16 &&& 0xF000#16 = 0xC000#16) ∧
    (0xDFFF#16 &&& 0xF000#16 = 0xD000#16) ∧ (0xEFFF#16 &&& 0xF000#16 = 0xE000#16) ∧
    (0xFF20#16 &&& 0xF0FF#16 = 0xF020#16) ∧ (0xFF21#16 &&& 0xF0FF#16 = 0xF021#16) ∧
    (0xFF22#16 &&& 0xF0FF#16 = 0xF022#16) ∧ (0xFF23#16 &&& 0xF0FF#16 = 0xF023#16) ∧
    (0xFF24#16 &&& 0xF0FF#16 = 0xF024#16) ∧ (0xFF25#16 &&& 0xF0FF#16 = 0xF025#16) ∧
    (0xFF00#16 &&& 0xF000#16 = 0xF000#16) ∧ (0xFF00#16).extractLsb' 0 8 < 0x20#8 ∧
    (0xFF1F#16 &&& 0xF000#16 = 0xF000#16) ∧ (0xFF1F#16).extractLsb' 0 8 < 0x20#8 ∧
    (0xFF26#16 &&& 0xF000#16 = 0xF000#16) ∧ 0x25#8 < (0xFF26#16).extractLsb' 0 8 ∧
    (0xFFFF#16 &&& 0xF000#16 = 0xF000#16) ∧ 0x25#8 < (0xFFFF#16).extractLsb' 0 8 := by decide

/-- The least and the greatest width, and the last value below the sign bit and the first with it (S1). -/
theorem witness_SignExtensionAndAddressSums :
    (0 < 1 ∧ 1 ≤ 16) ∧ (0 < 16 ∧ 16 ≤ 16) ∧ (0x0F#5).toNat < 2 ^ (5 - 1) ∧ ¬ (0x10#5).toNat < 2 ^ (5 - 1) ∧
      sext 0x0F#5 = 0x000F#16 ∧ sext 0x10#5 = 0xFFF0#16 := by decide

/-- A next state of an instruction that sets the flags, of one that does not, and of BR. -/
theorem witness_FlagsAreSetBySevenInstructionsAndReadByBranch :
    (∃ t, exec (.lea 0 0) State.reset = .next t) ∧ (Instr.lea 0 0).setsFlags = true ∧
    (∃ t, exec (.st 0 0) State.reset = .next t) ∧ (Instr.st 0 0).setsFlags = false ∧
    (∀ mask off9, Instr.st 0 0 ≠ .br mask off9) ∧ ∃ t, exec (.br 0b010 1) State.reset = .next t :=
  ⟨⟨_, rfl⟩, rfl, ⟨_, rfl⟩, rfl, nofun, ⟨_, rfl⟩⟩

theorem witness_OrdinaryReadChangesNothing :
    0xFE02#16 ≠ 0xFE00#16 ∧ 0xFDFF#16 ≠ 0xFE00#16 ∧ 0xFE01#16 ≠ 0xFE00#16 := by decide

theorem witness_KeyboardStatusReadIsOneShot :
    (machine 0 0b010 [] [(0xFE00, 0x8041), (0xFE01, 7)]).peek 0xFE00 = 0x8041#16 ∧ 0xFE01#16 ≠ 0xFE00#16 := by decide

theorem witness_CanonicalMemoriesThatReadAlikeAreEqual :
    Memory.wf [(0, 1), (0xFFFF, 2)] ∧ Memory.wf (Memory.write [(0xFFFF, 2)] 0 1) ∧
      ∀ a : Word, Memory.read [(0, 1), (0xFFFF, 2)] a.toNat =
        Memory.read (Memory.write [(0xFFFF, 2)] 0 1) a.toNat :=
  ⟨by decide, by decide, fun _ => rfl⟩

theorem witness_StepFetchesAdvancesAndRunsTheDecodedInstruction :
    (machine 0xFFFF 0b010 [] []).running = true ∧
      ({ State.reset with pc := 0xFE00 }.clearRunning).running = false := by decide

theorem witness_HaltedMachineStaysAsItIs : State.reset.clearRunning.running = false := by decide

theorem witness_BranchMovesPcWhenMaskMeetsFlags :
    oneFlag (machine 0 0b100 [] []).cond ∧ oneFlag (machine 0 0b010 [] []).cond ∧
      oneFlag (machine 0 0b001 [] []).cond := by decide

/-- LDI's two cases: a pointer at the keyboard-status word to itself, and one to another word. -/
theorem witness_LdiLoadsThroughThePointer :
    (let s := machine 0xFE02 0b010 [] [(0xFE00, 0xFE00)]
     s.pcRelative (-2 : BitVec 9) = 0xFE00#16 ∧ s.peek 0xFE00 = 0xFE00#16) ∧
    (let s := machine 0xFE02 0b010 [] [(0xFE00, 0x4000), (0x4000, 0x1234)]
     s.pcRelative (-2 : BitVec 9) = 0xFE00#16 ∧ s.peek 0xFE00 = 0x4000#16 ∧ s.peek 0x4000 = 0x1234#16) := by decide

theorem witness_StiStoresThroughThePointer :
    let s := machine 0xFE02 0b010 [(2, 0x00AA)] [(0xFE00, 0x6000)]
    s.pcRelative (-2 : BitVec 9) = 0xFE00#16 ∧ (s.memRead 0xFE00).1 = 0x6000#16 := by decide

theorem witness_UnnamedTrapVectorsOnlyReport :
    0x00#8 < 0x20#8 ∧ 0x1F#8 < 0x20#8 ∧ 0x25#8 < 0x26#8 ∧ 0x25#8 < 0xFF#8 := by decide

/-- A string that wraps and ends, one whose terminator is the keyboard-status word, and the empty one (S6, part 2.4). -/
theorem witness_PutsEmitsTheStringThenFlushes :
    (let s := machine 0x3001 0b010 [(0, 0xFFFF)] [(0xFFFF, 0x0041), (0, 0x0042)]
     let ws := [0x0041#16, 0x0042#16]
     (∀ (k : Nat) (h : k < ws.length), ws[k] = s.peek (s.reg 0#3 + BitVec.ofNat 16 k) ∧ ws[k] ≠ 0#16) ∧
       s.peek (s.reg 0#3 + BitVec.ofNat 16 ws.length) = 0#16 ∧
       (∀ k, k ≤ ws.length → s.reg 0#3 + BitVec.ofNat 16 k ≠ 0xFE00#16)) ∧
    (let s := machine 0x3001 0b010 [(0, 0xFDFF)] [(0xFDFF, 0x0041)]
     let ws := [0x0041#16]
     (∀ (k : Nat) (h : k < ws.length), ws[k] = s.peek (s.reg 0#3 + BitVec.ofNat 16 k) ∧ ws[k] ≠ 0#16) ∧
       s.peek (s.reg 0#3 + BitVec.ofNat 16 ws.length) = 0#16 ∧
       (∃ k, k ≤ ws.length ∧ s.reg 0#3 + BitVec.ofNat 16 k = 0xFE00#16)) ∧
    State.reset.peek (State.reset.reg 0#3 + BitVec.ofNat 16 ([] : List Word).length) = 0#16 :=
  ⟨⟨by decide, by decide, by decide⟩, ⟨by decide, by decide, 1, by decide⟩, by decide⟩

theorem witness_RtiAndResAreNoOperationsWithAnEvent :
    (∃ t, exec (.rti 0xFFF) State.reset = .next t) ∧ ∃ t, exec (.res 0xABC) State.reset = .next t :=
  ⟨⟨_, rfl⟩, ⟨_, rfl⟩⟩

/-- A next state of an instruction with a destination, of one without, of JSR, of JSRR and of PUTS. -/
theorem witness_InstructionsUseOnlyTheRegistersOfTheTable :
    (∃ t, exec (.addReg 1 2 0 3) State.reset = .next t) ∧ (4#3 ∉ (Instr.addReg 1 2 0 3).regsRead) ∧
    (1#3 ∉ (Instr.addReg 1 2 0 3).regsRead) ∧ (Instr.addReg 1 2 0 3).dest = some 1#3 ∧
    (∃ t, exec (.str 1 2 3) State.reset = .next t) ∧ (Instr.str 1 2 3).dest = none ∧
    (∃ t, exec (.jsr 0x7FF) State.reset = .next t) ∧ (∃ t, exec (.jsrr 0 7 0) State.reset = .next t) ∧
    ∃ t, exec (.puts 0) State.reset = .next t :=
  ⟨⟨_, rfl⟩, by decide, by decide, rfl, ⟨_, rfl⟩, rfl, ⟨_, rfl⟩, ⟨_, rfl⟩, ⟨_, rfl⟩⟩

theorem witness_OnlyControlTransfersWritePc :
    (Instr.halt 0).writesPc = false ∧ ∃ t, exec (.halt 0) State.reset = .next t := ⟨rfl, ⟨_, rfl⟩⟩

theorem witness_OnlyHaltClearsRunning :
    (∃ t, exec (.halt 0xF) State.reset = .next t ∧ t.running = false) ∧
    (∃ t, exec (.trap 0 0x26) State.reset = .next t ∧ t.running = true) ∧
    State.reset.clearRunning.running = false := ⟨⟨_, rfl, rfl⟩, ⟨_, rfl, rfl⟩, rfl⟩

/-- A store next to the keyboard-status word, a store to it, and an instruction that stores nothing. -/
theorem witness_InstructionsWriteOnlyTheirOneStore :
    (let s := machine 0xFE01 0b010 [(7, 0x8000)] []
     (Instr.st 7 0).store s = some (0xFE01#16, 0x8000#16) ∧ (Instr.st 7 (-1)).store s = some (0xFE00#16, 0x8000#16) ∧
       (Instr.ld 7 (-1)).store s = none) ∧
    (∃ t, exec (.st 7 0) (machine 0xFE01 0b010 [(7, 0x8000)] []) = .next t) ∧
    (∃ t, exec (.st 7 (-1)) (machine 0xFE01 0b010 [(7, 0x8000)] []) = .next t) ∧
    ∃ t, exec (.ld 7 (-1)) (machine 0xFE01 0b010 [(7, 0x8000)] []) = .next t :=
  ⟨by decide, ⟨_, rfl⟩, ⟨_, rfl⟩, ⟨_, rfl⟩⟩

theorem witness_EventsComeFromTheirInstructionsOnly :
    ((∃ t, exec (.rti 0) State.reset = .next t) ∧ (Instr.rti 0).diagKind = some .unknownOpcode) ∧
    ((∃ t, exec (.inp 0) State.reset = .next t) ∧ (Instr.inp 0).diagKind = some .unimplementedTrap) ∧
    ((∃ t, exec (.trap 0 0) State.reset = .next t) ∧ (Instr.trap 0 0).diagKind = some .unknownTrapVector) ∧
    ((∃ t, exec (.out 0) State.reset = .next t) ∧ (Instr.out 0).isPuts = false) ∧
    ((∃ t, exec (.ldi 0 0) State.reset = .next t) ∧ (Instr.ldi 0 0).diagKind = none) :=
  ⟨⟨⟨_, rfl⟩, rfl⟩, ⟨⟨_, rfl⟩, rfl⟩, ⟨⟨_, rfl⟩, rfl⟩, ⟨⟨_, rfl⟩, rfl⟩, ⟨⟨_, rfl⟩, rfl⟩⟩

theorem witness_IgnoredBitsHaveNoEffect :
    (∃ t, exec (.jmp 7 0 0x3F) State.reset = .next t) ∧ (Instr.jmp 7 0 0x3F).diagKind = none ∧
    Instr.jmp 7 0 0x3F ≠ (Instr.jmp 7 0 0x3F).canonical := ⟨⟨_, rfl⟩, rfl, by decide⟩

theorem witness_FetchSeesTheLatestStore :
    (Instr.st 0 (-1)).store (machine 0x3001 0b010 [(0, 0xF025)] []) = some (0x3000#16, 0xF025#16) ∧
    ∃ t, exec (.st 0 (-1)) (machine 0x3001 0b010 [(0, 0xF025)] []) = .next t := ⟨by decide, ⟨_, rfl⟩⟩

/-- A step that writes memory and flags, from a state that meets the invariant. -/
theorem witness_EveryStepKeepsTheInvariant :
    (machine 0xFE00 0b001 [] [(0xFE00, 0x1234)]).Inv ∧
    ∃ t, step (machine 0xFE00 0b001 [] [(0xFE00, 0x1234)]) = .next t ∧ t.cond = 0b100#3 ∧ t.mem = [] :=
  ⟨by decide, _, rfl, by decide, by decide⟩

theorem witness_TraceIsNeverRead :
    ∃ t, step (State.reset.withFetchWord 16 0xD000) = .next t ∧
      t.trace = [.rd 0x3000 0xD000, .diag .unknownOpcode 0xD000] := ⟨_, rfl, by decide⟩

/-- Two words at the top of memory, one of them dropped: the last address, and the bounds on each side. -/
theorem witness_ImageIsPlacedBigEndianAtItsOrigin :
    let hi : Byte := 0xFF
    let lo : Byte := 0xFF
    let data : List Byte := [0x11, 0x11, 0x22, 0x22]
    hi.toNat * 256 + lo.toNat = 65535 ∧ data.length / 2 = 2 ∧ 65536 < 65535 + 2 ∧
      (0xFFFF#16).toNat = 65535 + 0 ∧ (0xFFFE#16).toNat < 65535 := by decide

theorem witness_LoaderCornerCases :
    ([] : List Byte).length < 2 ∧ ([0x30] : List Byte).length < 2 ∧
      ([] : List Byte).length % 2 = 0 ∧ ([0x12, 0x34] : List Byte).length % 2 = 0 := by decide

end Sys2Proof.Tests
end

section
/-! SUPPORT. The state family: reset, the register file, and who reads and writes `cond` and `running`. -/

namespace Sys2Proof.Machine

/-! ## An update the instructions do not see -/

/-- The walk of PUTS goes through an update that no read sees and that reads and events pass through. -/
theorem putsWalk_map {f : State → State} (hpeek : ∀ s a, (f s).peek a = s.peek a)
    (hrd : ∀ s a, (f s).afterRead a = f (s.afterRead a)) (hemit : ∀ s e, (f s).emit e = f (s.emit e))
    (n : Nat) (a : Word) (s : State) : putsWalk n a (f s) = (putsWalk n a s).map f := by
  induction n generalizing a s with
  | zero => rfl
  | succ n ih =>
    by_cases hz : s.peek a = 0#16
    · rw [putsWalk_of_zero n a s hz, putsWalk_of_zero n a (f s) (by rw [hpeek, hz]), hrd, Option.map_some]
    · rw [putsWalk_of_ne_zero n a s hz, putsWalk_of_ne_zero n a (f s) (by rwa [hpeek]), hpeek, hrd, hemit, ih]

/-- PUTS commutes with such an update if the update leaves the registers alone as well. -/
theorem exec_puts_map {f : State → State} (hreg : ∀ s q, (f s).reg q = s.reg q)
    (hpeek : ∀ s a, (f s).peek a = s.peek a) (hrd : ∀ s a, (f s).afterRead a = f (s.afterRead a))
    (hemit : ∀ s e, (f s).emit e = f (s.emit e)) {ign : BitVec 4} {s t : State}
    (h : exec (.puts ign) s = .next t) : exec (.puts ign) (f s) = .next (f t) := by
  obtain ⟨u, hu, rfl⟩ := exec_puts_next h
  have hw : putsWalk Config.putsMaxReads ((f s).reg Config.stringReg) (f s) = some (f u) := by
    rw [putsWalk_map hpeek hrd hemit, hreg, hu, Option.map_some]
  rw [exec_puts_of_walk hw, hemit]

/-! ## The condition flags (R14) -/

/-- The sign of a word, its bit 15, as a bound on its unsigned value. -/
theorem getLsbD_15_eq_decide (v : Word) : v.getLsbD 15 = decide (32768 ≤ v.toNat) :=
  BitVec.msb_eq_decide v

theorem setcc_eq_of_toNat (v : Word) :
    setcc v = if v.toNat = 0 then 0b010#3 else if 32768 ≤ v.toNat then 0b100#3 else 0b001#3 := by
  have hzero : v = 0#16 ↔ v.toNat = 0 := BitVec.toNat_inj.symm
  simp only [setcc, hzero, getLsbD_15_eq_decide, decide_eq_true_eq]

/-- The register-defining write sets the flags from what the register then holds. -/
theorem cond_define_eq_setcc_reg (s : State) (dr : Reg) (v : Word) :
    (s.define dr v).cond = setcc ((s.define dr v).reg dr) := by
  rw [cond_define, reg_define, if_pos rfl]

/-- Each of the seven flag-setting instructions ends with the register-defining write of its destination. -/
theorem exec_ends_with_define {i : Instr} {s t : State} (h : exec i s = .next t) (hi : i.setsFlags = true) :
    ∃ u dr v, i.dest = some dr ∧ t = State.define u dr v := by
  cases i with
  | addReg | addImm | andReg | andImm | notReg | ld | ldi | ldr | lea => cases h; exact ⟨_, _, _, rfl, rfl⟩
  | _ => cases hi

theorem setCond_self (s : State) : s.setCond s.cond = s := rfl

/-- Every instruction but BR passes other flags through, or overwrites them if it sets the flags: it never reads them. -/
theorem exec_setCond {i : Instr} {s t : State} (c : BitVec 3) (hbr : ∀ mask off9, i ≠ .br mask off9)
    (h : exec i s = .next t) : exec i (s.setCond c) = .next (if i.setsFlags then t else t.setCond c) := by
  cases i with
  | br mask off9 => exact absurd rfl (hbr mask off9)
  | puts ign =>
    exact exec_puts_map (f := (State.setCond · c)) (fun _ _ => rfl) (fun _ _ => rfl) (fun _ _ => rfl)
      (fun _ _ => rfl) h
  | _ => cases h; rfl

/-- BR is a write of pc, whether it is taken or not. -/
theorem exec_br_eq_setPc (mask : BitVec 3) (off9 : BitVec 9) (s : State) :
    ∃ target, exec (.br mask off9) s = .next (s.setPc target) := by
  rw [exec_br]
  split
  · exact ⟨s.pcRelative off9, rfl⟩
  · exact ⟨s.pc, rfl⟩

/-- An instruction outside the seven keeps the flags: BR writes pc alone, and any other one passes through whatever
flags it starts with, its own included. -/
theorem cond_of_exec_of_not_setsFlags {i : Instr} {s t : State} (h : exec i s = .next t)
    (hi : i.setsFlags = false) : t.cond = s.cond := by
  by_cases hbr : ∃ mask off9, i = .br mask off9
  · obtain ⟨mask, off9, rfl⟩ := hbr
    obtain ⟨target, ht⟩ := exec_br_eq_setPc mask off9 s
    cases h.symm.trans ht
    rfl
  · have hc := exec_setCond s.cond (fun mask off9 e => hbr ⟨mask, off9, e⟩) h
    rw [setCond_self, h, hi, if_neg Bool.false_ne_true, Host.Outcome.next.injEq] at hc
    rw [hc, cond_setCond]

/-! ## The running flag (R15) -/

/-- No instruction reads the running flag; HALT clears it and every other one passes it through. -/
theorem exec_withRunning {i : Instr} {s t : State} (b : Bool) (h : exec i s = .next t) :
    exec i (s.withRunning b) = .next (t.withRunning (b && !i.isHalt)) := by
  cases i with
  | halt ign => cases h; rw [Instr.isHalt, Bool.not_true, Bool.and_false]; rfl
  | br mask off9 =>
    cases h
    rw [Instr.isHalt, Bool.not_false, Bool.and_true]
    rw [exec_br, apply_ite (State.withRunning · b)]
    rfl
  | puts ign =>
    rw [Instr.isHalt, Bool.not_false, Bool.and_true]
    exact exec_puts_map (f := (State.withRunning · b)) (fun _ _ => rfl) (fun _ _ => rfl) (fun _ _ => rfl)
      (fun _ _ => rfl) h
  | _ => cases h; rw [Instr.isHalt, Bool.not_false, Bool.and_true]; rfl

theorem withRunning_self (s : State) : s.withRunning s.running = s := rfl

/-- The running flag after an instruction: `exec_withRunning` at the flag the state already has. -/
theorem running_of_exec {i : Instr} {s t : State} (h : exec i s = .next t) :
    t.running = (s.running && !i.isHalt) := by
  have hr := exec_withRunning s.running h
  rw [withRunning_self, h, Host.Outcome.next.injEq] at hr
  rw [hr, running_withRunning]

/-! ## Reset (R19) -/

@[simp] theorem reg_reset (r : Reg) : State.reset.reg r = 0#16 := Vector.getElem_replicate r.isLt

@[simp] theorem peek_reset (a : Word) : State.reset.peek a = 0#16 := Memory.read_nil a.toNat

/-! ## The obligations -/

/-- Settles O8: the flag writes by the form of the seven, the flag reads by passing other flags through. -/
theorem flagsAreSetBySevenInstructionsAndReadByBranch :
    Obligations.FlagsAreSetBySevenInstructionsAndReadByBranch := by
  refine ⟨setcc_eq_of_toNat, fun i s t h => ⟨fun hi => ?_, cond_of_exec_of_not_setsFlags h⟩,
    fun i s t c hbr h => exec_setCond c hbr h, fun mask off9 s c => exec_br_eq_setPc mask off9 (s.setCond c)⟩
  obtain ⟨u, dr, v, hdest, rfl⟩ := exec_ends_with_define h hi
  exact ⟨dr, hdest, cond_define_eq_setcc_reg u dr v⟩

/-- Settles O38: every clause about an instruction comes from `exec_withRunning`. -/
theorem onlyHaltClearsRunning : Obligations.OnlyHaltClearsRunning :=
  ⟨rfl, fun _ => rfl, fun _ _ _ => running_of_exec, fun _ => step_of_halted, fun _ _ _ b => exec_withRunning b,
    fun s a v b => ⟨running_memWrite s a v, running_afterRead s a, peek_withRunning s b a⟩, fun _ => rfl⟩

/-- Settles O1, by evaluating the reset state and its two accessors. -/
theorem resetLeavesTheStatedState : Obligations.ResetLeavesTheStatedState :=
  ⟨reg_reset, rfl, rfl, rfl, peek_reset, rfl⟩

/-- Settles O9, by the laws of `setReg`. -/
theorem registersAreOrdinaryAndIndependent : Obligations.RegistersAreOrdinaryAndIndependent :=
  fun s r q v => ⟨reg_setReg s r v q, pc_setReg s r v, cond_setReg s r v, running_setReg s r v,
    peek_setReg s r v, trace_setReg s r v⟩

end Sys2Proof.Machine
end

section
/-! SUPPORT. The memory family: what one read and one write of a word do to the state. -/

namespace Sys2Proof.Machine

/-! ## Reads (R32, R33) -/

/-- A read away from the keyboard-status word leaves no mark but its event. -/
theorem afterRead_of_ne_kbsrAddr (s : State) {a : Word} (ha : a ≠ Config.kbsrAddr) :
    s.afterRead a = s.withTrace (s.trace ++ [.rd a (s.peek a)]) :=
  State.ext_fields rfl rfl rfl rfl (if_neg ha) rfl

/-- The word that was read: lost at the keyboard-status address, kept everywhere else. -/
theorem peek_afterRead_self (s : State) (a : Word) :
    (s.afterRead a).peek a = if a = Config.kbsrAddr then 0#16 else s.peek a := by
  simp only [peek_afterRead, and_self]

theorem peek_afterRead_kbsrAddr (s : State) : (s.afterRead Config.kbsrAddr).peek Config.kbsrAddr = 0#16 :=
  (peek_afterRead_self s Config.kbsrAddr).trans (if_pos rfl)

/-- No read, wherever it is, changes a word other than the keyboard-status word. -/
theorem peek_afterRead_of_ne_kbsrAddr (s : State) (a : Word) {b : Word} (hb : b ≠ Config.kbsrAddr) :
    (s.afterRead a).peek b = s.peek b :=
  (peek_afterRead s a b).trans (if_neg fun h => hb h.1)

/-! ## Writes (R34) -/

theorem peek_memWrite_self (s : State) (a v : Word) : (s.memWrite a v).peek a = v :=
  (peek_memWrite s a v a).trans (if_pos rfl)

theorem peek_memWrite_of_ne (s : State) (a v : Word) {b : Word} (hb : b ≠ a) :
    (s.memWrite a v).peek b = s.peek b :=
  (peek_memWrite s a v b).trans (if_neg hb)

/-- A word that was written and then read: only the keyboard-status word does not keep it. -/
theorem peek_afterRead_memWrite_self (s : State) (a v : Word) :
    ((s.memWrite a v).afterRead a).peek a = if a = Config.kbsrAddr then 0#16 else v := by
  rw [peek_afterRead_self, peek_memWrite_self]

/-! ## The obligations -/

/-- Settles O10: away from the keyboard-status word a read is its value and its event. -/
theorem ordinaryReadChangesNothing : Obligations.OrdinaryReadChangesNothing :=
  fun s a ha => ⟨memRead_fst s a, afterRead_of_ne_kbsrAddr s ha⟩

/-- Settles O11: the second read returns 0 because it peeks at the word the first one cleared. -/
theorem keyboardStatusReadIsOneShot : Obligations.KeyboardStatusReadIsOneShot := by
  intro s
  have hcleared := peek_afterRead_kbsrAddr s
  exact ⟨memRead_fst s _, hcleared, fun b hb => peek_afterRead_of_ne_kbsrAddr s _ hb, reg_afterRead s _,
    pc_afterRead s _, cond_afterRead s _, running_afterRead s _, trace_afterRead s _, hcleared⟩

/-- Settles O12, by the laws of `memWrite` and of the read after it. -/
theorem writeStoresAtEveryAddress : Obligations.WriteStoresAtEveryAddress := by
  intro s a v
  have hstored := peek_memWrite_self s a v
  exact ⟨hstored, fun b hb => peek_memWrite_of_ne s a v hb, reg_memWrite s a v, pc_memWrite s a v,
    cond_memWrite s a v, running_memWrite s a v, trace_memWrite s a v, hstored, peek_afterRead_memWrite_self s a v⟩

end Sys2Proof.Machine
end

section
/-! SUPPORT. The step family: the state between the fetch and the instruction (R62). -/

namespace Sys2Proof.Machine

/-! ## The fetch (R62) -/

/-- The advance of pc wraps at the top of the address space. -/
theorem toNat_pc_fetch (s : State) : s.fetch.2.pc.toNat = (s.pc.toNat + 1) % 65536 := by
  rw [fetch_snd, pc_setPc, BitVec.toNat_add]
  rfl

/-- The fetch is a read of the memory interface: at the keyboard-status word it clears what it fetches (R33). -/
theorem memAfterRead_fetch (s : State) : MemAfterRead s.pc s s.fetch.2 := by
  intro b
  rw [fetch_snd, peek_setPc, peek_afterRead]

/-- No general register takes part in the fetch. -/
theorem sameRegs_fetch (s : State) : SameRegs s s.fetch.2 := by
  intro r
  rw [fetch_snd, reg_setPc, reg_afterRead]

/-! ## The obligation -/

/-- Settles O14: the state the instruction starts from is the one the fetch leaves. -/
theorem stepFetchesAdvancesAndRunsTheDecodedInstruction :
    Obligations.StepFetchesAdvancesAndRunsTheDecodedInstruction := by
  refine fun s => ⟨fun hrun => ⟨s.fetch.2, ?_⟩, step_of_halted⟩
  have hstep : step s = exec (decode (s.peek s.pc)) s.fetch.2 := by rw [step_of_running hrun, fetch_snd]
  have hcond : s.fetch.2.cond = s.cond := by rw [fetch_snd, cond_setPc, cond_afterRead]
  have hrunning : s.fetch.2.running = s.running := by rw [fetch_snd, running_setPc, running_afterRead]
  have htrace : s.fetch.2.trace = s.trace ++ [.rd s.pc (s.peek s.pc)] := by
    rw [fetch_snd, trace_setPc, trace_afterRead]
  exact ⟨hstep, toNat_pc_fetch s, sameRegs_fetch s, hcond, hrunning, memAfterRead_fetch s, htrace⟩

end Sys2Proof.Machine
end


section
/-! SUPPORT. The reserved family: an instruction that only reports, and the trace as an observation (R140 to R142). -/

namespace Sys2Proof.Machine

/-! ## The architectural part (R18) -/

@[simp] theorem arch_diag (s : State) (k : DiagKind) (w : Word) : (s.diag k w).arch = s.arch := rfl
@[simp] theorem arch_withTrace (s : State) (tr : List Event) : (s.withTrace tr).arch = s.arch := rfl

/-! ## Instructions without an effect (R142) -/

/-- An instruction whose whole meaning is the report of its own word leaves everything but the trace as it was. -/
theorem onlyReports_of_exec_eq_diag {i : Instr} {k : DiagKind}
    (h : ∀ s, exec i s = .next (s.diag k (encode i))) : OnlyReports i k :=
  fun s => ⟨_, h s, fun r => reg_diag s k _ r, cond_diag s k _, pc_diag s k _, running_diag s k _,
    fun b => peek_diag s k _ b, trace_diag s k _⟩

/-- The empty mask shares no bit with any flags, so the branch is never taken. -/
theorem exec_br_mask_zero (off9 : BitVec 9) (s : State) : exec (.br 0#3 off9) s = .next s := by
  rw [exec_br, BitVec.zero_and, if_neg (not_not_intro rfl)]

/-! ## The trace is appended to and never read (log 2) -/

/-- The walk of PUTS appends the same events to whatever trace it starts with. -/
theorem putsWalk_withTrace {n : Nat} {a : Word} {s t : State} (h : putsWalk n a s = some t) :
    ∃ evs, t.trace = s.trace ++ evs ∧
      ∀ tr, putsWalk n a (s.withTrace tr) = some (t.withTrace (tr ++ evs)) := by
  induction n generalizing a s with
  | zero => cases h
  | succ n ih =>
    by_cases hz : s.peek a = 0#16
    · rw [putsWalk_of_zero n a s hz, Option.some_inj] at h
      subst h
      exact ⟨_, rfl, fun tr => putsWalk_of_zero n a (s.withTrace tr) hz⟩
    · rw [putsWalk_of_ne_zero n a s hz] at h
      obtain ⟨evs, htrace, hwalk⟩ := ih h
      refine ⟨[.rd a (s.peek a)] ++ ([.out (charOf (s.peek a))] ++ evs), ?_, fun tr => ?_⟩
      · rw [htrace, ← List.append_assoc, ← List.append_assoc, trace_emit, trace_afterRead]
      · rw [putsWalk_of_ne_zero n a (s.withTrace tr) hz, ← List.append_assoc, ← List.append_assoc]
        exact hwalk (tr ++ [.rd a (s.peek a)] ++ [.out (charOf (s.peek a))])

/-- Every instruction appends the same events to whatever trace it starts with, and the rest of the state it leaves
does not depend on that trace. -/
theorem exec_withTrace {i : Instr} {s t : State} (h : exec i s = .next t) :
    ∃ evs, t.trace = s.trace ++ evs ∧
      ∀ tr, exec i (s.withTrace tr) = .next (t.withTrace (tr ++ evs)) := by
  cases i with
  | puts ign =>
    obtain ⟨u, hu, rfl⟩ := exec_puts_next h
    obtain ⟨evs, htrace, hwalk⟩ := putsWalk_withTrace hu
    refine ⟨evs ++ [.flush], ?_, fun tr => ?_⟩
    · rw [trace_emit, htrace, List.append_assoc]
    · rw [← List.append_assoc]
      exact exec_puts_of_walk (hwalk tr)
  | br mask off9 =>
    cases h
    refine ⟨[], ?_, fun tr => ?_⟩
    · rw [List.append_nil, apply_ite State.trace, trace_setPc, ite_self]
    · rw [List.append_nil, exec_br, apply_ite (State.withTrace · tr)]
      rfl
  | addReg | addImm | andReg | andImm | notReg | lea | jsr | jsrr | jmp | halt =>
    cases h
    exact ⟨[], (List.append_nil _).symm, fun tr => by rw [List.append_nil]; rfl⟩
  | ld | ldr | st | str | rti | res | getc | out | inp | putsp | trap =>
    cases h
    exact ⟨[_], rfl, fun _ => rfl⟩
  | ldi | sti =>
    cases h
    exact ⟨[_, _], List.append_assoc .., fun tr => by rw [List.append_cons]; rfl⟩

/-! ## The obligation -/

/-- Settles O35: RTI and RES are one report each, and the trace an instruction starts with reaches nothing but the trace
it leaves. -/
theorem rtiAndResAreNoOperationsWithAnEvent : Obligations.RtiAndResAreNoOperationsWithAnEvent := by
  refine fun ign => ⟨onlyReports_of_exec_eq_diag (exec_rti ign), onlyReports_of_exec_eq_diag (exec_res ign),
    fun off9 s t h => ⟨exec_br_mask_zero off9 s, ?_⟩, fun i s t tr h => ?_⟩
  · obtain h | h := h
    · cases h
      exact arch_diag s _ _
    · cases h
      exact arch_diag s _ _
  · obtain ⟨evs, -, hwith⟩ := exec_withTrace h
    exact ⟨_, hwith tr, arch_withTrace t _⟩

end Sys2Proof.Machine
end

section
/-! SUPPORT. The exceptions family: the walk of PUTS ends within its bound (R126), so every instruction answers a next
state (R150). -/

namespace Sys2Proof.Machine

/-! ## PUTS ends (R126) -/

/-- A walk ends if, should its first word not end it, the walk from the next address on does. -/
theorem putsWalk_isSome_succ {n : Nat} {a : Word} {s : State}
    (h : s.peek a ≠ 0#16 → (putsWalk n (a + 1#16) ((s.afterRead a).emit (.out (charOf (s.peek a))))).isSome) :
    (putsWalk (n + 1) a s).isSome := by
  by_cases hz : s.peek a = 0#16
  · rw [putsWalk_of_zero n a s hz, Option.isSome_some]
  · rw [putsWalk_of_ne_zero n a s hz]
    exact h hz

/-- A zero word stays zero under a read: the only word a read can change becomes zero (R33). -/
theorem peek_afterRead_of_eq_zero {s : State} (a : Word) {b : Word} (h : s.peek b = 0#16) :
    (s.afterRead a).peek b = 0#16 := by
  rw [peek_afterRead, h, ite_self]

/-- The address `k + 1` words ahead is `k` words ahead of the next one. -/
theorem add_ofNat_succ (a : Word) (k : Nat) : a + BitVec.ofNat 16 (k + 1) = a + 1#16 + BitVec.ofNat 16 k := by
  rw [BitVec.add_assoc, Nat.add_comm k 1, BitVec.ofNat_add]

/-- A walk ends if a zero word stands fewer words ahead than it may read. -/
theorem putsWalk_isSome_of_zero_ahead {n k : Nat} {a : Word} {s : State} (hk : k < n)
    (hz : s.peek (a + BitVec.ofNat 16 k) = 0#16) : (putsWalk n a s).isSome := by
  induction k generalizing n a s with
  | zero =>
    obtain ⟨m, rfl⟩ := Nat.exists_eq_add_one.mpr hk
    rw [BitVec.add_zero] at hz
    exact putsWalk_isSome_succ fun hne => absurd hz hne
  | succ k ih =>
    obtain ⟨m, rfl⟩ := Nat.exists_eq_add_one.mpr (Nat.zero_lt_of_lt hk)
    rw [add_ofNat_succ] at hz
    refine putsWalk_isSome_succ fun _ => ih (Nat.lt_of_succ_lt_succ hk) ?_
    rw [peek_emit]
    exact peek_afterRead_of_eq_zero a hz

/-- A walk ends if it may go once around the address space after it has read the keyboard-status word: that read clears
the word, so the walk finds a zero there at the latest when it comes back. -/
theorem putsWalk_isSome_of_kbsrAddr_ahead {n d : Nat} {a : Word} {s : State} (hd : d + 65536 < n)
    (ha : a + BitVec.ofNat 16 d = Config.kbsrAddr) : (putsWalk n a s).isSome := by
  induction d generalizing n a s with
  | zero =>
    obtain ⟨m, rfl⟩ := Nat.exists_eq_add_one.mpr (Nat.zero_lt_of_lt hd)
    rw [BitVec.add_zero] at ha
    subst ha
    have hback : Config.kbsrAddr + 1#16 + BitVec.ofNat 16 65535 = Config.kbsrAddr := by decide
    refine putsWalk_isSome_succ fun _ => putsWalk_isSome_of_zero_ahead (k := 65535) (by omega) ?_
    rw [hback, peek_emit, peek_afterRead_kbsrAddr]
  | succ d ih =>
    obtain ⟨m, rfl⟩ := Nat.exists_eq_add_one.mpr (Nat.zero_lt_of_lt hd)
    rw [add_ofNat_succ] at ha
    exact putsWalk_isSome_succ fun _ => ih (by omega) ha

/-- Whatever the memory and the address, the walk ends within the reads R126 allows. -/
theorem putsWalk_putsMaxReads_isSome (a : Word) (s : State) : (putsWalk Config.putsMaxReads a s).isSome := by
  refine putsWalk_isSome_of_kbsrAddr_ahead (d := (Config.kbsrAddr - a).toNat) ?_ ?_
  · have hdist := (Config.kbsrAddr - a).isLt
    rw [Config.putsMaxReads]
    omega
  · rw [BitVec.ofNat_toNat, BitVec.setWidth_eq, BitVec.add_comm, BitVec.sub_add_cancel]

/-! ## Every instruction answers (R150) -/

/-- No instruction faults and none is refused: PUTS alone could, and its walk always ends. -/
theorem exec_answers_next (i : Instr) (s : State) : ∃ t, exec i s = .next t := by
  cases i with
  | puts ign =>
    obtain ⟨u, hu⟩ := Option.isSome_iff_exists.mp (putsWalk_putsMaxReads_isSome (s.reg Config.stringReg) s)
    exact ⟨u.emit .flush, exec_puts_of_walk hu⟩
  | _ => exact ⟨_, rfl⟩

/-! ## The obligation -/

/-- Settles O43: a halted machine stays as it is, and in a running one the instruction read answers and only HALT clears
the flag. -/
theorem stepAlwaysAnswersANextState : Obligations.StepAlwaysAnswersANextState := by
  intro s
  cases hrun : s.running with
  | false => exact ⟨s, step_of_halted hrun, .inl hrun⟩
  | true =>
    obtain ⟨t, ht⟩ := exec_answers_next (decode (s.peek s.pc)) s.fetch.2
    refine ⟨t, (step_of_running hrun).trans ht, ?_⟩
    have hflag : t.running = !(decode (s.peek s.pc)).isHalt := by
      rw [running_of_exec ht, fetch_snd, running_setPc, running_afterRead, hrun, Bool.true_and]
    cases hhalt : (decode (s.peek s.pc)).isHalt with
    | true => exact .inr rfl
    | false => exact .inl (by rw [hflag, hhalt, Bool.not_false])

end Sys2Proof.Machine
end

section
/-! SUPPORT. The reset family: a machine whose memory is all zero runs no-operations (R185). -/

namespace Sys2Proof.Machine

/-! ## Zero words (R90) -/

/-- The zero word is the branch that is never taken. -/
theorem decode_zero : decode 0#16 = .nop := by decide

theorem exec_nop (s : State) : exec .nop s = .next s := exec_br_mask_zero 0 s

/-- A running machine that stands at a zero word fetches it and does nothing more. -/
theorem step_of_peek_pc_eq_zero {s : State} (hrun : s.running = true) (hpc : s.peek s.pc = 0#16) :
    step s = .next s.fetch.2 := by
  rw [step_of_running hrun, hpc, decode_zero, exec_nop, fetch_snd]

/-! ## Runs over zeroed memory (R185) -/

/-- `t` is what `k` no-operations leave of `s`, with nothing else ahead of it: pc has counted on by `k`, flags and
registers are as they were, it runs, and every word is zero. -/
structure AfterNops (k : Nat) (s t : State) : Prop where
  pc : t.pc.toNat = (s.pc.toNat + k) % 65536
  running : t.running = true
  cond : t.cond = s.cond
  regs : SameRegs s t
  zeroed : ∀ b, t.peek b = 0#16

theorem afterNops_zero {s : State} (hrun : s.running = true) (hzero : ∀ b, s.peek b = 0#16) : AfterNops 0 s s where
  pc := (Nat.mod_eq_of_lt s.pc.isLt).symm
  running := hrun
  cond := rfl
  regs := fun _ => rfl
  zeroed := hzero

/-- One fetch more is one no-operation more: the fetch at the keyboard-status word clears a word that is zero already. -/
theorem AfterNops.fetch {k : Nat} {s t : State} (h : AfterNops k s t) : AfterNops (k + 1) s t.fetch.2 where
  pc := by rw [toNat_pc_fetch, h.pc, Nat.mod_add_mod, Nat.add_assoc]
  running := by rw [fetch_snd, running_setPc, running_afterRead, h.running]
  cond := by rw [fetch_snd, cond_setPc, cond_afterRead, h.cond]
  regs := fun r => (sameRegs_fetch t r).trans (h.regs r)
  zeroed := fun b => by rw [fetch_snd, peek_setPc, peek_afterRead_of_eq_zero t.pc (h.zeroed b)]

/-- Every number of further steps is as many no-operations. -/
theorem AfterNops.run {k : Nat} {s t : State} (h : AfterNops k s t) (n : Nat) :
    ∃ u, Host.Core.run Sys2Proof.core n t = .next u ∧ AfterNops (k + n) s u := by
  induction n generalizing k t with
  | zero => exact ⟨t, rfl, h⟩
  | succ n ih =>
    rw [run_succ n (step_of_peek_pc_eq_zero h.running (h.zeroed t.pc)), Nat.add_comm n 1, ← Nat.add_assoc]
    exact ih h.fetch

/-! ## The obligation -/

/-- Settles O49: with no file the boot stops at reset, whose memory is zero, so every step is a no-operation. -/
theorem failedLoadRunsOnZeroedMemory : Obligations.FailedLoadRunsOnZeroedMemory := by
  refine ⟨rfl, rfl, fun n => ?_⟩
  obtain ⟨t, hrun, hnops⟩ := (afterNops_zero (s := State.reset) rfl peek_reset).run n
  rw [Nat.zero_add] at hnops
  exact ⟨t, hrun, hnops.pc, hnops.running, hnops.cond, hnops.regs, hnops.zeroed⟩

end Sys2Proof.Machine
end

section
/-! SUPPORT. The encoding family: the decoder as a relation with one rule per row, and the fields of a word, each taken
apart and put together again (R51, R52, R57). -/

namespace Sys2Proof

open Machine

/-! ## The decoder as a relation (R57) -/

/-- `w` is a word of the row of `i`, whose operands are the fields of `w`: what the decoder answers, with the conditions
on `w` that choose the row. -/
inductive DecodesAs (w : Word) : Instr → Prop
  | br : opcodeField w = 0x0#4 → DecodesAs w (.br (hiField w) (off9Field w))
  | addReg : opcodeField w = 0x1#4 → modeBit w = false →
      DecodesAs w (.addReg (hiField w) (midField w) (ign43 w) (loField w))
  | addImm : opcodeField w = 0x1#4 → modeBit w = true →
      DecodesAs w (.addImm (hiField w) (midField w) (imm5Field w))
  | ld : opcodeField w = 0x2#4 → DecodesAs w (.ld (hiField w) (off9Field w))
  | st : opcodeField w = 0x3#4 → DecodesAs w (.st (hiField w) (off9Field w))
  | jsr : opcodeField w = 0x4#4 → longFlag w = true → DecodesAs w (.jsr (off11Field w))
  | jsrr : opcodeField w = 0x4#4 → longFlag w = false →
      DecodesAs w (.jsrr (ign109 w) (midField w) (off6Field w))
  | andReg : opcodeField w = 0x5#4 → modeBit w = false →
      DecodesAs w (.andReg (hiField w) (midField w) (ign43 w) (loField w))
  | andImm : opcodeField w = 0x5#4 → modeBit w = true →
      DecodesAs w (.andImm (hiField w) (midField w) (imm5Field w))
  | ldr : opcodeField w = 0x6#4 → DecodesAs w (.ldr (hiField w) (midField w) (off6Field w))
  | str : opcodeField w = 0x7#4 → DecodesAs w (.str (hiField w) (midField w) (off6Field w))
  | rti : opcodeField w = 0x8#4 → DecodesAs w (.rti (ign110 w))
  | notReg : opcodeField w = 0x9#4 → DecodesAs w (.notReg (hiField w) (midField w) (off6Field w))
  | ldi : opcodeField w = 0xA#4 → DecodesAs w (.ldi (hiField w) (off9Field w))
  | sti : opcodeField w = 0xB#4 → DecodesAs w (.sti (hiField w) (off9Field w))
  | jmp : opcodeField w = 0xC#4 → DecodesAs w (.jmp (hiField w) (midField w) (off6Field w))
  | res : opcodeField w = 0xD#4 → DecodesAs w (.res (ign110 w))
  | lea : opcodeField w = 0xE#4 → DecodesAs w (.lea (hiField w) (off9Field w))
  | getc : opcodeField w = 0xF#4 → trapField w = Config.vecGetc → DecodesAs w (.getc (ign118 w))
  | out : opcodeField w = 0xF#4 → trapField w = Config.vecOut → DecodesAs w (.out (ign118 w))
  | puts : opcodeField w = 0xF#4 → trapField w = Config.vecPuts → DecodesAs w (.puts (ign118 w))
  | inp : opcodeField w = 0xF#4 → trapField w = Config.vecIn → DecodesAs w (.inp (ign118 w))
  | putsp : opcodeField w = 0xF#4 → trapField w = Config.vecPutsp → DecodesAs w (.putsp (ign118 w))
  | halt : opcodeField w = 0xF#4 → trapField w = Config.vecHalt → DecodesAs w (.halt (ign118 w))
  | trap : opcodeField w = 0xF#4 → isNamedVector (trapField w) = false →
      DecodesAs w (.trap (ign118 w) (trapField w))

theorem isNamedVector_eq_false_iff (v : BitVec 8) :
    isNamedVector v = false ↔ v ≠ Config.vecGetc ∧ v ≠ Config.vecOut ∧ v ≠ Config.vecPuts ∧ v ≠ Config.vecIn ∧
      v ≠ Config.vecPutsp ∧ v ≠ Config.vecHalt := by
  simp only [isNamedVector, Bool.or_eq_false_iff, beq_eq_false_iff_ne, and_assoc]

/-- The vectors outside 0x20 to 0x25 have no routine (R121, R130). -/
theorem isNamedVector_of_outside {v : BitVec 8} (h : v < 0x20#8 ∨ 0x25#8 < v) : isNamedVector v = false := by
  rw [isNamedVector_eq_false_iff]
  bv_omega

/-- The row for the other vectors is left when none of the six comparisons holds. -/
theorem decodesAs_decodeTrap {w : Word} (h : opcodeField w = 0xF#4) : DecodesAs w (decodeTrap w) := by
  fun_cases decodeTrap w with
  | case1 v hv => exact .getc h hv
  | case2 v _ hv => exact .out h hv
  | case3 v _ _ hv => exact .puts h hv
  | case4 v _ _ _ hv => exact .inp h hv
  | case5 v _ _ _ _ hv => exact .putsp h hv
  | case6 v _ _ _ _ _ hv => exact .halt h hv
  | case7 v h₁ h₂ h₃ h₄ h₅ h₆ => exact .trap h ((isNamedVector_eq_false_iff _).mpr ⟨h₁, h₂, h₃, h₄, h₅, h₆⟩)

/-- The decoder answers by its rules: each of its branches has tested the conditions of its row. -/
theorem decodesAs_decode (w : Word) : DecodesAs w (decode w) := by
  fun_cases decode w
  case case1 h => exact .br h
  case case2 h hm => exact .addImm h hm
  case case3 h hm => exact .addReg h (Bool.eq_false_of_not_eq_true hm)
  case case4 h => exact .ld h
  case case5 h => exact .st h
  case case6 h hl => exact .jsr h hl
  case case7 h hl => exact .jsrr h (Bool.eq_false_of_not_eq_true hl)
  case case8 h hm => exact .andImm h hm
  case case9 h hm => exact .andReg h (Bool.eq_false_of_not_eq_true hm)
  case case10 h => exact .ldr h
  case case11 h => exact .str h
  case case12 h => exact .rti h
  case case13 h => exact .notReg h
  case case14 h => exact .ldi h
  case case15 h => exact .sti h
  case case16 h => exact .jmp h
  case case17 h => exact .res h
  case case18 h => exact .lea h
  case case19 op h₀ h₁ h₂ h₃ h₄ h₅ h₆ h₇ h₈ h₉ hA hB hC hD hE =>
    refine decodesAs_decodeTrap ?_
    change op = 0xF#4
    bv_omega

/-- The conditions of a row rule out every branch of the decoder but its own. -/
theorem DecodesAs.decode_eq {w : Word} {i : Instr} (h : DecodesAs w i) : decode w = i := by
  cases h with
  | trap h hv =>
    obtain ⟨h₁, h₂, h₃, h₄, h₅, h₆⟩ := (isNamedVector_eq_false_iff _).mp hv
    simp only [decode, h, decodeTrap, h₁, h₂, h₃, h₄, h₅, h₆]
    rfl
  | getc h hv | out h hv | puts h hv | inp h hv | putsp h hv | halt h hv =>
    simp only [decode, h, decodeTrap, hv]
    rfl
  | addReg h hb | addImm h hb | jsr h hb | jsrr h hb | andReg h hb | andImm h hb =>
    simp only [decode, h, hb]
    rfl
  | br h | ld h | st h | ldr h | str h | rti h | notReg h | ldi h | sti h | jmp h | res h | lea h =>
    simp only [decode, h]
    rfl

theorem DecodesAs.wellFormed {w : Word} {i : Instr} (h : DecodesAs w i) : i.wellFormed = true := by
  cases h with
  | trap h hv => rw [Instr.wellFormed, hv, Bool.not_false]
  | _ => rfl

/-! ## A word as the concatenation of its fields (R51) -/

/-- A field of a field is a field of the word. -/
theorem extractLsb'_extractLsb' {n s l s' l' : Nat} {x : BitVec n} (h : s + l ≤ l') :
    (x.extractLsb' s' l').extractLsb' s l = x.extractLsb' (s' + s) l := by
  ext i hi
  have hlt : s + i < l' := by omega
  simp only [BitVec.getElem_extractLsb', BitVec.getLsbD_extractLsb', hlt, decide_true, Bool.true_and, Nat.add_assoc]

/-- One bit of a word, as a field of width 1. -/
theorem getLsbD_eq_iff (w : Word) (k : Nat) (b : Bool) :
    w.getLsbD k = b ↔ w.extractLsb' k 1 = BitVec.ofBool b := by
  have hfield : w.extractLsb' k 1 = BitVec.ofBool (w.getLsbD k) := by
    ext i hi
    obtain rfl : i = 0 := by omega
    simp
  rw [hfield, BitVec.ofBool_eq_iff_eq]

section Concatenations

variable {n₁ n₂ n₃ n₄ n₅ n₆ : Nat} {a : BitVec n₁} {b : BitVec n₂} {c : BitVec n₃} {d : BitVec n₄} {e : BitVec n₅}
  {f : BitVec n₆}

theorem eq_append_iff {x : BitVec (n₁ + n₂)} :
    x = a ++ b ↔ x.extractLsb' n₂ n₁ = a ∧ x.extractLsb' 0 n₂ = b := by
  constructor
  · rintro rfl
    exact ⟨BitVec.extractLsb'_append_eq_left, BitVec.extractLsb'_append_eq_right⟩
  · rintro ⟨rfl, rfl⟩
    rw [BitVec.extractLsb'_append_extractLsb'_eq_extractLsb' (Nat.zero_add n₂).symm, BitVec.extractLsb'_eq_self]

theorem eq_append₃_iff {x : BitVec (n₁ + n₂ + n₃)} :
    x = a ++ b ++ c ↔
      x.extractLsb' (n₃ + n₂) n₁ = a ∧ x.extractLsb' n₃ n₂ = b ∧ x.extractLsb' 0 n₃ = c := by
  simp (disch := omega) only [eq_append_iff, extractLsb'_extractLsb', and_assoc, Nat.add_zero]

theorem eq_append₄_iff {x : BitVec (n₁ + n₂ + n₃ + n₄)} :
    x = a ++ b ++ c ++ d ↔
      x.extractLsb' (n₄ + n₃ + n₂) n₁ = a ∧ x.extractLsb' (n₄ + n₃) n₂ = b ∧ x.extractLsb' n₄ n₃ = c ∧
        x.extractLsb' 0 n₄ = d := by
  simp (disch := omega) only [eq_append_iff, extractLsb'_extractLsb', and_assoc, Nat.add_zero]

theorem eq_append₅_iff {x : BitVec (n₁ + n₂ + n₃ + n₄ + n₅)} :
    x = a ++ b ++ c ++ d ++ e ↔
      x.extractLsb' (n₅ + n₄ + n₃ + n₂) n₁ = a ∧ x.extractLsb' (n₅ + n₄ + n₃) n₂ = b ∧
        x.extractLsb' (n₅ + n₄) n₃ = c ∧ x.extractLsb' n₅ n₄ = d ∧ x.extractLsb' 0 n₅ = e := by
  simp (disch := omega) only [eq_append_iff, extractLsb'_extractLsb', and_assoc, Nat.add_zero]

theorem eq_append₆_iff {x : BitVec (n₁ + n₂ + n₃ + n₄ + n₅ + n₆)} :
    x = a ++ b ++ c ++ d ++ e ++ f ↔
      x.extractLsb' (n₆ + n₅ + n₄ + n₃ + n₂) n₁ = a ∧ x.extractLsb' (n₆ + n₅ + n₄ + n₃) n₂ = b ∧
        x.extractLsb' (n₆ + n₅ + n₄) n₃ = c ∧ x.extractLsb' (n₆ + n₅) n₄ = d ∧ x.extractLsb' n₆ n₅ = e ∧
          x.extractLsb' 0 n₆ = f := by
  simp (disch := omega) only [eq_append_iff, extractLsb'_extractLsb', and_assoc, Nat.add_zero]

end Concatenations

/-! The eight layouts of R51, from bit 15 down. -/

section Layouts

variable {w : Word} {op : BitVec 4}

theorem eq_op_ign110_iff {a : BitVec 12} :
    w = op ++ a ↔
      opcodeField w = op ∧ ign110 w = a :=
  eq_append_iff (n₁ := 4) (n₂ := 12)

theorem eq_op_hi_off9_iff {a : BitVec 3} {b : BitVec 9} :
    w = op ++ a ++ b ↔
      opcodeField w = op ∧ hiField w = a ∧ off9Field w = b :=
  eq_append₃_iff (n₁ := 4) (n₂ := 3) (n₃ := 9)

theorem eq_op_ign118_trap_iff {a : BitVec 4} {b : BitVec 8} :
    w = op ++ a ++ b ↔
      opcodeField w = op ∧ ign118 w = a ∧ trapField w = b :=
  eq_append₃_iff (n₁ := 4) (n₂ := 4) (n₃ := 8)

theorem eq_op_long_off11_iff {l : Bool} {a : BitVec 11} :
    w = op ++ BitVec.ofBool l ++ a ↔
      opcodeField w = op ∧ longFlag w = l ∧ off11Field w = a := by
  rw [longFlag, getLsbD_eq_iff]
  exact eq_append₃_iff (n₁ := 4) (n₂ := 1) (n₃ := 11)

theorem eq_op_hi_mid_off6_iff {a b : BitVec 3} {c : BitVec 6} :
    w = op ++ a ++ b ++ c ↔
      opcodeField w = op ∧ hiField w = a ∧ midField w = b ∧ off6Field w = c :=
  eq_append₄_iff (n₁ := 4) (n₂ := 3) (n₃ := 3) (n₄ := 6)

theorem eq_op_long_ign109_mid_off6_iff {l : Bool} {a : BitVec 2} {b : BitVec 3} {c : BitVec 6} :
    w = op ++ BitVec.ofBool l ++ a ++ b ++ c ↔
      opcodeField w = op ∧ longFlag w = l ∧ ign109 w = a ∧ midField w = b ∧ off6Field w = c := by
  rw [longFlag, getLsbD_eq_iff]
  exact eq_append₅_iff (n₁ := 4) (n₂ := 1) (n₃ := 2) (n₄ := 3) (n₅ := 6)

theorem eq_op_hi_mid_mode_imm5_iff {m : Bool} {a b : BitVec 3} {c : BitVec 5} :
    w = op ++ a ++ b ++ BitVec.ofBool m ++ c ↔
      opcodeField w = op ∧ hiField w = a ∧ midField w = b ∧ modeBit w = m ∧ imm5Field w = c := by
  rw [modeBit, getLsbD_eq_iff]
  exact eq_append₅_iff (n₁ := 4) (n₂ := 3) (n₃ := 3) (n₄ := 1) (n₅ := 5)

theorem eq_op_hi_mid_mode_ign43_lo_iff {m : Bool} {a b : BitVec 3} {c : BitVec 2} {d : BitVec 3} :
    w = op ++ a ++ b ++ BitVec.ofBool m ++ c ++ d ↔
      opcodeField w = op ∧ hiField w = a ∧ midField w = b ∧ modeBit w = m ∧ ign43 w = c ∧ loField w = d := by
  rw [modeBit, getLsbD_eq_iff]
  exact eq_append₆_iff (n₁ := 4) (n₂ := 3) (n₃ := 3) (n₄ := 1) (n₅ := 2) (n₆ := 3)

end Layouts

/-- The encoder puts the fields back where the decoder took them from. -/
theorem DecodesAs.encode_eq {w : Word} {i : Instr} (h : DecodesAs w i) : encode i = w := by
  symm
  cases h with
  | br h | ld h | st h | ldi h | sti h | lea h => exact eq_op_hi_off9_iff.mpr ⟨h, rfl, rfl⟩
  | ldr h | str h | notReg h | jmp h => exact eq_op_hi_mid_off6_iff.mpr ⟨h, rfl, rfl, rfl⟩
  | rti h | res h => exact eq_op_ign110_iff.mpr ⟨h, rfl⟩
  | addReg h hm | andReg h hm => exact (eq_op_hi_mid_mode_ign43_lo_iff (m := false)).mpr ⟨h, rfl, rfl, hm, rfl, rfl⟩
  | addImm h hm | andImm h hm => exact (eq_op_hi_mid_mode_imm5_iff (m := true)).mpr ⟨h, rfl, rfl, hm, rfl⟩
  | jsr h hl => exact (eq_op_long_off11_iff (l := true)).mpr ⟨h, hl, rfl⟩
  | jsrr h hl => exact (eq_op_long_ign109_mid_off6_iff (l := false)).mpr ⟨h, hl, rfl, rfl, rfl⟩
  | getc h hv | out h hv | puts h hv | inp h hv | putsp h hv | halt h hv =>
    exact eq_op_ign118_trap_iff.mpr ⟨h, rfl, hv⟩
  | trap h hv => exact eq_op_ign118_trap_iff.mpr ⟨h, rfl, rfl⟩

/-- The fields of an encoded instruction are its operands; its vector, if it has one of its own, is not a named one. -/
theorem decodesAs_encode {i : Instr} (hwf : i.wellFormed = true) : DecodesAs (encode i) i := by
  generalize hw : encode i = w
  cases i with
  | br | ld | st | ldi | sti | lea =>
    obtain ⟨h, rfl, rfl⟩ := eq_op_hi_off9_iff.mp hw.symm
    constructor
    exact h
  | ldr | str | notReg | jmp =>
    obtain ⟨h, rfl, rfl, rfl⟩ := eq_op_hi_mid_off6_iff.mp hw.symm
    constructor
    exact h
  | rti | res =>
    obtain ⟨h, rfl⟩ := eq_op_ign110_iff.mp hw.symm
    constructor
    exact h
  | addReg | andReg =>
    obtain ⟨h, rfl, rfl, hm, rfl, rfl⟩ := (eq_op_hi_mid_mode_ign43_lo_iff (m := false)).mp hw.symm
    constructor
    exacts [h, hm]
  | addImm | andImm =>
    obtain ⟨h, rfl, rfl, hm, rfl⟩ := (eq_op_hi_mid_mode_imm5_iff (m := true)).mp hw.symm
    constructor
    exacts [h, hm]
  | jsr =>
    obtain ⟨h, hl, rfl⟩ := (eq_op_long_off11_iff (l := true)).mp hw.symm
    exact .jsr h hl
  | jsrr =>
    obtain ⟨h, hl, rfl, rfl, rfl⟩ := (eq_op_long_ign109_mid_off6_iff (l := false)).mp hw.symm
    exact .jsrr h hl
  | getc | out | puts | inp | putsp | halt =>
    obtain ⟨h, rfl, hv⟩ := eq_op_ign118_trap_iff.mp hw.symm
    constructor
    exacts [h, hv]
  | trap =>
    obtain ⟨h, rfl, rfl⟩ := eq_op_ign118_trap_iff.mp hw.symm
    exact .trap h (by rwa [← Bool.not_eq_true'])

/-! ## The masks of the opcode table -/

/-- A field inside the mask has the bits of the pattern. -/
theorem field_of_and_eq {w m p : Word} {k n : Nat} (h : w &&& m = p)
    (hm : m.extractLsb' k n = BitVec.allOnes n) : w.extractLsb' k n = p.extractLsb' k n := by
  rw [← h, BitVec.extractLsb'_and, hm, BitVec.and_allOnes]

/-- A bit inside the mask is the bit of the pattern. -/
theorem bit_of_and_eq {w m p : Word} {k : Nat} (h : w &&& m = p) (hm : m.getLsbD k = true) :
    w.getLsbD k = p.getLsbD k := by
  rw [← h, BitVec.getLsbD_and, hm, Bool.and_true]

/-! ## The first row that takes a word (R57) -/

/-- Every encoded word is taken by the row of its instruction. -/
theorem takes_encode : ∀ i : Instr, Laws.TableRow.Statement i
  | .br _ _ => Laws.TableRow.br _ _
  | .addReg _ _ _ _ => Laws.TableRow.addReg _ _ _ _
  | .addImm _ _ _ => Laws.TableRow.addImm _ _ _
  | .ld _ _ => Laws.TableRow.ld _ _
  | .st _ _ => Laws.TableRow.st _ _
  | .jsr _ => Laws.TableRow.jsr _
  | .jsrr _ _ _ => Laws.TableRow.jsrr _ _ _
  | .andReg _ _ _ _ => Laws.TableRow.andReg _ _ _ _
  | .andImm _ _ _ => Laws.TableRow.andImm _ _ _
  | .ldr _ _ _ => Laws.TableRow.ldr _ _ _
  | .str _ _ _ => Laws.TableRow.str _ _ _
  | .rti _ => Laws.TableRow.rti _
  | .notReg _ _ _ => Laws.TableRow.notReg _ _ _
  | .ldi _ _ => Laws.TableRow.ldi _ _
  | .sti _ _ => Laws.TableRow.sti _ _
  | .jmp _ _ _ => Laws.TableRow.jmp _ _ _
  | .res _ => Laws.TableRow.res _
  | .lea _ _ => Laws.TableRow.lea _ _
  | .getc _ => Laws.TableRow.getc _
  | .out _ => Laws.TableRow.out _
  | .puts _ => Laws.TableRow.puts _
  | .inp _ => Laws.TableRow.inp _
  | .putsp _ => Laws.TableRow.putsp _
  | .halt _ => Laws.TableRow.halt _
  | .trap _ _ => Laws.TableRow.trap _ _

/-- Two rows take no word in common if their patterns differ on a bit of both masks. -/
theorem takes_eq_false_of_disjoint {r q : TableRow} {w : Word}
    (hrq : r.pattern &&& q.mask ≠ q.pattern &&& r.mask) (hq : q.takes w = true) : r.takes w = false := by
  rw [TableRow.takes, beq_iff_eq] at hq
  rw [TableRow.takes, beq_eq_false_iff_ne]
  intro hr
  rw [← hr, ← hq, BitVec.and_assoc, BitVec.and_assoc, BitVec.and_comm r.mask] at hrq
  exact hrq rfl

/-- The rows before the last one differ pairwise on such a bit. -/
theorem exactRows_pairwise :
    (opcodeTable.take 24).Pairwise fun r q => r.pattern &&& q.mask ≠ q.pattern &&& r.mask := by decide

theorem opcodeField_mask_of_mem : ∀ r ∈ opcodeTable.take 24, opcodeField r.mask = 0xF#4 := by decide

/-- The rows of opcode 1111 before the last one name their vector. -/
theorem named_of_mem : ∀ r ∈ opcodeTable.take 24, opcodeField r.pattern = 0xF#4 →
    trapField r.mask = 0xFF#8 ∧ isNamedVector (trapField r.pattern) = true := by decide

/-- No row before the last one takes a word of opcode 1111 whose vector has no routine. -/
theorem takes_eq_false_of_unnamed {r : TableRow} {w : Word} (hr : r ∈ opcodeTable.take 24)
    (hop : opcodeField w = 0xF#4) (hv : isNamedVector (trapField w) = false) : r.takes w = false := by
  rw [TableRow.takes, beq_eq_false_iff_ne]
  intro h
  have hpat : opcodeField r.pattern = 0xF#4 := (field_of_and_eq h (opcodeField_mask_of_mem r hr)).symm.trans hop
  obtain ⟨hmask, hnamed⟩ := named_of_mem r hr hpat
  have hvect : trapField w = trapField r.pattern := field_of_and_eq h hmask
  rw [hvect, hnamed] at hv
  exact Bool.noConfusion hv

/-- Only the row for the other vectors is not among the first 24. -/
theorem DecodesAs.row_lt_or_unnamed {w : Word} {i : Instr} (h : DecodesAs w i) :
    i.row < 24 ∨ opcodeField w = 0xF#4 ∧ isNamedVector (trapField w) = false := by
  cases h with
  | trap hop hv => exact .inr ⟨hop, hv⟩
  | _ => exact .inl (by rw [Instr.row]; decide)

/-! ## The obligations -/

/-- Settles O5: a word under the mask of a row meets the row's conditions, which the decoder's rules ask for. -/
theorem decoderReadsEachFieldAtItsBits : Obligations.DecoderReadsEachFieldAtItsBits := by
  intro w
  have hop {m p : Word} (h : w &&& m = p) (hm : opcodeField m = 0xF#4 := by rfl) : opcodeField w = opcodeField p :=
    field_of_and_eq h hm
  have hmode {p : Word} (h : w &&& 0xF020#16 = p) : modeBit w = modeBit p := bit_of_and_eq h rfl
  have hlong {p : Word} (h : w &&& 0xF800#16 = p) : longFlag w = longFlag p := bit_of_and_eq h rfl
  have hvec {p : Word} (h : w &&& 0xF0FF#16 = p) : trapField w = trapField p := field_of_and_eq h rfl
  exact ⟨
    fun h => (DecodesAs.br (hop h)).decode_eq,
    fun h => (DecodesAs.addReg (hop h) (hmode h)).decode_eq,
    fun h => (DecodesAs.addImm (hop h) (hmode h)).decode_eq,
    fun h => (DecodesAs.ld (hop h)).decode_eq,
    fun h => (DecodesAs.st (hop h)).decode_eq,
    fun h => (DecodesAs.jsr (hop h) (hlong h)).decode_eq,
    fun h => (DecodesAs.jsrr (hop h) (hlong h)).decode_eq,
    fun h => (DecodesAs.andReg (hop h) (hmode h)).decode_eq,
    fun h => (DecodesAs.andImm (hop h) (hmode h)).decode_eq,
    fun h => (DecodesAs.ldr (hop h)).decode_eq,
    fun h => (DecodesAs.str (hop h)).decode_eq,
    fun h => (DecodesAs.rti (hop h)).decode_eq,
    fun h => (DecodesAs.notReg (hop h)).decode_eq,
    fun h => (DecodesAs.ldi (hop h)).decode_eq,
    fun h => (DecodesAs.sti (hop h)).decode_eq,
    fun h => (DecodesAs.jmp (hop h)).decode_eq,
    fun h => (DecodesAs.res (hop h)).decode_eq,
    fun h => (DecodesAs.lea (hop h)).decode_eq,
    fun h => (DecodesAs.getc (hop h) (hvec h)).decode_eq,
    fun h => (DecodesAs.out (hop h) (hvec h)).decode_eq,
    fun h => (DecodesAs.puts (hop h) (hvec h)).decode_eq,
    fun h => (DecodesAs.inp (hop h) (hvec h)).decode_eq,
    fun h => (DecodesAs.putsp (hop h) (hvec h)).decode_eq,
    fun h => (DecodesAs.halt (hop h) (hvec h)).decode_eq,
    fun h hv => (DecodesAs.trap (hop h) (isNamedVector_of_outside hv)).decode_eq⟩

/-- Settles O3: what the decoder answers is a row whose fields are those of the word. -/
theorem encodeOfDecodeIsTheWord : Obligations.EncodeOfDecodeIsTheWord :=
  fun w => ⟨(decodesAs_decode w).wellFormed, (decodesAs_decode w).encode_eq⟩

/-- Settles O4: the row of the decoded instruction takes the word, which is its encoding, and excludes the rows before
it. -/
theorem decoderTakesTheFirstTableRow : Obligations.DecoderTakesTheFirstTableRow := by
  intro w
  have hdec := decodesAs_decode w
  obtain ⟨r, hr, htakes⟩ := Option.map_eq_some_iff.mp (takes_encode (decode w))
  obtain ⟨hrow, rfl⟩ := List.getElem?_eq_some_iff.mp hr
  rw [hdec.encode_eq] at htakes
  refine List.findIdx?_eq_some_iff_getElem.mpr ⟨hrow, htakes, fun j hj => ?_⟩
  rw [Bool.not_eq_true]
  have hj24 : j < 24 := by
    change (decode w).row < 25 at hrow
    omega
  obtain hlt | ⟨hop, hv⟩ := hdec.row_lt_or_unnamed
  · have hjlen : j < (opcodeTable.take 24).length := hj24
    have hlen : (decode w).row < (opcodeTable.take 24).length := hlt
    have hdis := List.pairwise_iff_getElem.mp exactRows_pairwise j (decode w).row hjlen hlen hj
    simp only [List.getElem_take] at hdis
    exact takes_eq_false_of_disjoint hdis htakes
  · exact takes_eq_false_of_unnamed (List.mem_take_iff_getElem.mpr ⟨j, hj24, rfl⟩) hop hv

/-- Settles O2: the fields of the encoded word are the operands. -/
theorem decodeOfEncodeIsTheInstruction : Obligations.DecodeOfEncodeIsTheInstruction :=
  fun _ hwf => (decodesAs_encode hwf).decode_eq

/-- Settles O6, by evaluating the decoder. -/
theorem workedWordsDecode : Obligations.WorkedWordsDecode := by
  unfold Obligations.WorkedWordsDecode
  decide

end Sys2Proof
end

section
/-! SUPPORT. The invariant family: the canonical form of memory, and that every step keeps it and one flag (R20). -/

namespace Sys2Proof.Machine

/-! ## Memory as a set of entries -/

theorem Memory.mem_of_read_ne {m : Memory} {a : Nat} (h : m.read a ≠ 0#16) : (a, m.read a) ∈ m := by
  induction m with
  | nil => exact absurd rfl h
  | cons c m ih =>
    rw [Memory.read_cons] at h ⊢
    split_ifs at h ⊢ with hc
    · exact hc ▸ List.mem_cons_self
    · exact List.mem_cons_of_mem c (ih h)

/-- In canonical form an entry is found at its address: no earlier entry has the same one. -/
theorem Memory.read_of_mem {m : Memory} {c : Nat × Word} (h : m.Pairwise (fun c d => c.1 < d.1)) (hc : c ∈ m) :
    m.read c.1 = c.2 := by
  induction m with
  | nil => cases hc
  | cons d m ih =>
    obtain ⟨hd, hm⟩ := List.pairwise_cons.mp h
    rw [Memory.read_cons]
    obtain rfl | hc := List.mem_cons.mp hc
    · exact if_pos rfl
    · rw [if_neg (hd c hc).ne, ih hm hc]

/-- An entry of one canonical memory is an entry of every memory that reads alike. -/
theorem Memory.mem_of_reads_alike {m n : Memory} (hm : m.wf) (h : ∀ a : Word, m.read a.toNat = n.read a.toNat)
    {c : Nat × Word} (hc : c ∈ m) : c ∈ n := by
  obtain ⟨haddr, hne⟩ := hm.2 c hc
  have hn : n.read c.1 = c.2 := by
    have hword := h (BitVec.ofNat 16 c.1)
    rw [BitVec.toNat_ofNat, Nat.mod_eq_of_lt haddr, Memory.read_of_mem hm.1 hc] at hword
    exact hword.symm
  have hmem := Memory.mem_of_read_ne (m := n) (a := c.1) (hn ▸ hne)
  rwa [hn] at hmem

/-! ## The invariant along a step -/

/-- A read and a write keep the invariant through the canonical form; the flags change only to those of a value. -/
theorem inv_of_exec {i : Instr} {s t : State} (h : exec i s = .next t) (hs : s.Inv) : t.Inv :=
  exec_keeps (P := State.Inv) (fun _ _ _ hs => hs) (fun _ _ v hs => ⟨oneFlag_setcc v, hs.2⟩) (fun _ _ hs => hs)
    (fun _ hs => hs) (fun _ _ hs => hs) (fun _ a hs => ⟨hs.1, wf_afterRead a hs.2⟩)
    (fun _ a v hs => ⟨hs.1, wf_memWrite a v hs.2⟩) h hs

/-! ## The obligations -/

/-- Settles O13: two lists that rise in address and have the same entries are the same list. -/
theorem canonicalMemoriesThatReadAlikeAreEqual : Obligations.CanonicalMemoriesThatReadAlikeAreEqual := by
  intro m n hm hn h
  have hirrefl : Std.Irrefl fun c d : Nat × Word => c.1 < d.1 := ⟨fun c => lt_irrefl c.1⟩
  have hantisymm : Std.Antisymm fun c d : Nat × Word => c.1 < d.1 := ⟨fun _ _ hcd hdc => absurd hdc hcd.asymm⟩
  exact List.Pairwise.eq_of_mem_iff hm.1 hn.1 fun c =>
    ⟨Memory.mem_of_reads_alike hm h, Memory.mem_of_reads_alike hn fun a => (h a).symm⟩

/-- Settles O45: the flag is ZERO and the memory list is empty. -/
theorem invariantHoldsAtReset : Obligations.InvariantHoldsAtReset := ⟨.inr (.inl rfl), Memory.wf_nil⟩

/-- Settles O46: the fetch is a read, and the instruction it reads keeps the invariant. -/
theorem everyStepKeepsTheInvariant : Obligations.EveryStepKeepsTheInvariant := by
  intro s t hs h
  cases hrun : s.running with
  | false =>
    rw [step_of_halted hrun, Host.Outcome.next.injEq] at h
    exact h ▸ hs
  | true =>
    rw [step_of_running hrun] at h
    exact inv_of_exec h ⟨hs.1, wf_afterRead s.pc hs.2⟩

end Sys2Proof.Machine
end

section
/-! SUPPORT. The instruction family: the result and the frame of each instruction, by the shape of its effect
(R80 to R131). -/

namespace Sys2Proof.Machine

/-! ## Sign extension and addresses (R7, R53, R107) -/

theorem toNat_sext {n : Nat} (v : BitVec n) (hn : n ≤ 16) :
    (sext v).toNat = if v.toNat < 2 ^ (n - 1) then v.toNat else v.toNat + (65536 - 2 ^ n) := by
  have hv : v.toNat < 65536 := v.isLt.trans_le (Nat.pow_le_pow_right (by decide) hn)
  have hmsb : v.msb = true ↔ ¬ v.toNat < 2 ^ (n - 1) := by
    rw [BitVec.msb_eq_decide, decide_eq_true_iff, not_lt]
  rw [sext, BitVec.toNat_signExtend, BitVec.toNat_setWidth, Nat.mod_eq_of_lt hv]
  simp only [hmsb]
  split_ifs <;> rfl

/-- Settles O7: the value of a sign extension, and sums of words, which are sums modulo 65536. -/
theorem signExtensionAndAddressSums : Obligations.SignExtensionAndAddressSums :=
  ⟨fun _ v _ => toNat_sext v, fun _ _ => BitVec.toNat_add _ _, fun _ _ => BitVec.toNat_add _ _,
    fun _ _ _ => BitVec.toNat_add _ _⟩

/-! ## ADD, AND, NOT, LEA (R80 to R87, R103) -/

/-- An instruction that ends with the register-defining write of a value and does nothing else. -/
theorem definesRegister_of_exec_eq {i : Instr} {dr : Reg} {v : State → Word}
    (h : ∀ s, exec i s = .next (s.define dr (v s))) : DefinesRegister i dr v :=
  fun s => ⟨_, h s, (reg_define s dr _ dr).trans (if_pos rfl),
    fun r hr => (reg_define s dr _ r).trans (if_neg hr), rfl, rfl, rfl, fun _ => rfl, rfl⟩

/-- Settles O16: both forms define the destination with the sum. -/
theorem addWritesTheSumAndItsFlags : Obligations.AddWritesTheSumAndItsFlags :=
  ⟨fun dr sr1 sr2 ign => definesRegister_of_exec_eq (exec_addReg dr sr1 ign sr2),
    fun dr sr1 imm5 => definesRegister_of_exec_eq (exec_addImm dr sr1 imm5)⟩

/-- Settles O17: both forms define the destination with the bitwise AND. -/
theorem andWritesTheMeetAndItsFlags : Obligations.AndWritesTheMeetAndItsFlags :=
  ⟨fun dr sr1 sr2 ign => definesRegister_of_exec_eq (exec_andReg dr sr1 ign sr2),
    fun dr sr1 imm5 => definesRegister_of_exec_eq (exec_andImm dr sr1 imm5)⟩

/-- Settles O18: the complement within 16 bits is the difference from 0xFFFF. -/
theorem notWritesTheComplementAndItsFlags : Obligations.NotWritesTheComplementAndItsFlags := by
  refine fun dr sr ign => definesRegister_of_exec_eq fun s => ?_
  have hnot : 0xFFFF#16 - s.reg sr = ~~~s.reg sr := BitVec.allOnes_sub_eq_not _
  rw [exec_notReg, hnot]

/-- Settles O26: LEA defines the destination with the address. -/
theorem leaWritesTheAddressAndItsFlags : Obligations.LeaWritesTheAddressAndItsFlags :=
  fun dr off9 => definesRegister_of_exec_eq (exec_lea dr off9)

/-! ## BR, JMP, JSR, JSRR (R90 to R95) -/

/-- A write of pc alone: what it leaves unchanged. -/
theorem setPc_frame (s : State) (target : Word) :
    SameRegs s (s.setPc target) ∧ (s.setPc target).cond = s.cond ∧ (s.setPc target).running = s.running ∧
      SameMem s (s.setPc target) ∧ (s.setPc target).trace = s.trace :=
  ⟨fun _ => rfl, rfl, rfl, fun _ => rfl, rfl⟩

/-- A link and then a write of pc: the link register and what the two leave unchanged. -/
theorem link_setPc_frame (s : State) (target : Word) :
    (s.link.setPc target).reg Config.linkReg = s.pc ∧ SameRegsBut Config.linkReg s (s.link.setPc target) :=
  ⟨(reg_link s _).trans (if_pos rfl), fun r hr => (reg_link s r).trans (if_neg hr)⟩

/-- BR is a write of pc: by the target if the branch is taken and by pc itself if not. -/
theorem exec_br_setPc (mask : BitVec 3) (off9 : BitVec 9) (s : State) :
    exec (.br mask off9) s = .next (s.setPc (if mask &&& s.cond ≠ 0#3 then s.pcRelative off9 else s.pc)) := by
  rw [exec_br]
  split <;> rfl

/-- Settles O19: mask 000 shares no bit with the flags, and mask 111 shares every bit, so one that is set. -/
theorem branchMovesPcWhenMaskMeetsFlags : Obligations.BranchMovesPcWhenMaskMeetsFlags := by
  intro mask off9 s
  refine ⟨_, exec_br_setPc mask off9 s, rfl, ?_, ?_, setPc_frame s _⟩
  · rintro rfl
    rw [pc_setPc, BitVec.zero_and, if_neg (not_not_intro rfl)]
  · rintro rfl hflag
    have hmeet : 0b111#3 &&& s.cond ≠ 0#3 := by
      obtain h | h | h := hflag <;> rw [h] <;> decide
    rw [pc_setPc, if_pos hmeet]

/-- Settles O20: JMP is a write of pc. -/
theorem jumpGoesToTheBaseRegister : Obligations.JumpGoesToTheBaseRegister :=
  fun hi base lo s => ⟨_, exec_jmp hi base lo s, rfl, setPc_frame s _⟩

/-- Settles O21: JSR links and then writes pc. -/
theorem jsrLinksThenMovesPc : Obligations.JsrLinksThenMovesPc := by
  intro off11 s
  obtain ⟨hlink, hregs⟩ := link_setPc_frame s (s.pcRelative off11)
  exact ⟨_, exec_jsr off11 s, hlink, hregs, rfl, rfl, rfl, fun _ => rfl, rfl⟩

/-- Settles O22: the base register is read after the link, so register 7 is already the advanced pc. -/
theorem jsrrLinksBeforeItReadsTheBase : Obligations.JsrrLinksBeforeItReadsTheBase := by
  intro hi base lo s
  obtain ⟨hlink, hregs⟩ := link_setPc_frame s (s.link.reg base)
  exact ⟨_, exec_jsrr hi base lo s, hlink, hregs, reg_link s base, rfl, rfl, fun _ => rfl, rfl⟩

/-! ## Loads (R100 to R102) -/

/-- An instruction that reads one word and ends with the register-defining write of it. -/
theorem loadsWord_of_exec_eq {i : Instr} {dr : Reg} {a : State → Word}
    (h : ∀ s, exec i s = .next ((s.afterRead (a s)).define dr (s.peek (a s)))) : LoadsWord i dr a :=
  fun s => ⟨_, h s, (reg_define _ dr _ dr).trans (if_pos rfl),
    fun r hr => (reg_define _ dr _ r).trans (if_neg hr), rfl, rfl, rfl, fun b => peek_afterRead s (a s) b, rfl⟩

/-- Settles O23: LD loads from the PC-relative address. -/
theorem ldLoadsPcRelative : Obligations.LdLoadsPcRelative :=
  fun dr off9 => loadsWord_of_exec_eq (exec_ld dr off9)

/-- Settles O24: LDR loads from the base-plus-offset address of the state before it. -/
theorem ldrLoadsBasePlusOffset : Obligations.LdrLoadsBasePlusOffset :=
  fun dr base off6 => loadsWord_of_exec_eq (exec_ldr dr base off6)

/-- Two reads leave the keyboard-status word cleared if either was there. -/
theorem peek_afterRead_afterRead (s : State) (a p b : Word) :
    ((s.afterRead a).afterRead p).peek b =
      if b = Config.kbsrAddr ∧ (a = Config.kbsrAddr ∨ p = Config.kbsrAddr) then 0#16 else s.peek b := by
  rw [peek_afterRead, peek_afterRead]
  by_cases hb : b = Config.kbsrAddr
  · by_cases hp : p = Config.kbsrAddr
    · simp only [hb, hp, and_self, or_true, if_true]
    · simp only [hb, hp, and_false, or_false, true_and, if_false]
  · simp only [hb, false_and, if_false]

/-- Settles O25: the second read sees the keyboard-status word that the first may have cleared. -/
theorem ldiLoadsThroughThePointer : Obligations.LdiLoadsThroughThePointer := by
  rintro dr off9 s a p v rfl rfl hv
  have hdata : (s.afterRead (s.pcRelative off9)).peek (s.peek (s.pcRelative off9)) = v := by
    rw [hv, peek_afterRead]
    simp only [and_comm]
  refine ⟨_, exec_ldi dr off9 s, ?_, fun r hr => ?_, ?_, rfl, rfl, peek_afterRead_afterRead s _ _, ?_⟩
  · rw [reg_define, if_pos rfl, hdata]
  · rw [reg_define, if_neg hr, reg_afterRead, reg_afterRead]
  · rw [cond_define, hdata]
  · rw [trace_define, trace_afterRead, trace_afterRead, hdata, List.append_assoc]
    rfl

/-! ## Stores (R104 to R106) -/

/-- An instruction that is one write of a register. -/
theorem storesWord_of_exec_eq {i : Instr} {sr : Reg} {a : State → Word}
    (h : ∀ s, exec i s = .next (s.memWrite (a s) (s.reg sr))) : StoresWord i sr a :=
  fun s => ⟨_, h s, peek_memWrite_self s _ _, fun _ hb => peek_memWrite_of_ne s _ _ hb, fun _ => rfl, rfl,
    rfl, rfl, rfl⟩

/-- Settles O27: ST is a write at the PC-relative address. -/
theorem stStoresPcRelative : Obligations.StStoresPcRelative :=
  fun sr off9 => storesWord_of_exec_eq (exec_st sr off9)

/-- Settles O28: STR is a write at the base-plus-offset address. -/
theorem strStoresBasePlusOffset : Obligations.StrStoresBasePlusOffset :=
  fun sr base off6 => storesWord_of_exec_eq (exec_str sr base off6)

/-- Settles O29: outside the word it stores, STI leaves what the read of its pointer leaves. -/
theorem stiStoresThroughThePointer : Obligations.StiStoresThroughThePointer := by
  rintro sr off9 s a p rfl rfl
  exact ⟨_, exec_sti sr off9 s, rfl, peek_memWrite_self _ _ _,
    fun b hb => (peek_memWrite_of_ne _ _ _ hb).trans (peek_afterRead s _ b), fun _ => rfl, rfl, rfl, rfl,
    List.append_assoc _ _ _⟩

/-! ## TRAP (R122 to R130) -/

/-- Settles O30: the four routines are one report each. -/
theorem unimplementedTrapsOnlyReport : Obligations.UnimplementedTrapsOnlyReport :=
  fun ign => ⟨onlyReports_of_exec_eq_diag (exec_getc ign), onlyReports_of_exec_eq_diag (exec_out ign),
    onlyReports_of_exec_eq_diag (exec_inp ign), onlyReports_of_exec_eq_diag (exec_putsp ign)⟩

/-- Settles O31: TRAP without a routine is one report, whatever its vector. -/
theorem unnamedTrapVectorsOnlyReport : Obligations.UnnamedTrapVectorsOnlyReport :=
  fun ign vect _ => onlyReports_of_exec_eq_diag (exec_trap ign vect)

/-- Settles O32: HALT is the write of the running flag. -/
theorem haltClearsRunningAndNothingElse : Obligations.HaltClearsRunningAndNothingElse :=
  fun ign s => ⟨_, exec_halt ign s, rfl, fun _ => rfl, rfl, rfl, fun _ => rfl, rfl⟩

end Sys2Proof.Machine
end

section
/-! SUPPORT. The string family: what the walk of PUTS shows and what it leaves unchanged (R125, R126). -/

namespace Sys2Proof.Machine

/-! ## The frame of a walk -/

/-- `t` is `s` after reads and events: everything but the trace is as it was, and the keyboard-status word at most
cleared. -/
structure ReadFrame (s t : State) : Prop where
  regs : SameRegs s t
  cond : t.cond = s.cond
  pc : t.pc = s.pc
  running : t.running = s.running
  words : ∀ b, b ≠ Config.kbsrAddr → t.peek b = s.peek b
  kbsr : t.peek Config.kbsrAddr = s.peek Config.kbsrAddr ∨ t.peek Config.kbsrAddr = 0#16

theorem ReadFrame.refl (s : State) : ReadFrame s s :=
  ⟨fun _ => rfl, rfl, rfl, rfl, fun _ _ => rfl, .inl rfl⟩

theorem ReadFrame.emit {s t : State} (h : ReadFrame s t) (e : Event) : ReadFrame s (t.emit e) := { h with }

theorem ReadFrame.afterRead {s t : State} (h : ReadFrame s t) (a : Word) : ReadFrame s (t.afterRead a) :=
  { h with
    words := fun b hb => (peek_afterRead_of_ne_kbsrAddr t a hb).trans (h.words b hb)
    kbsr := by
      rw [peek_afterRead]
      split
      · exact .inr rfl
      · exact h.kbsr }

theorem readFrame_of_putsWalk {n : Nat} {a : Word} {s t : State} (h : putsWalk n a s = some t) : ReadFrame s t :=
  putsWalk_keeps (P := ReadFrame s) (fun _ a ht => ht.afterRead a) (fun _ _ ht => ht.emit _) h (.refl s)

theorem readFrame_of_exec_puts {ign : BitVec 4} {s t : State} (h : exec (.puts ign) s = .next t) :
    ReadFrame s t := by
  obtain ⟨u, hu, rfl⟩ := exec_puts_next h
  exact (readFrame_of_putsWalk hu).emit _

/-- A read changes no word but the one it reads. -/
theorem peek_afterRead_of_ne (s : State) {a b : Word} (hb : b ≠ a) : (s.afterRead a).peek b = s.peek b := by
  rw [peek_afterRead, if_neg]
  rintro ⟨rfl, rfl⟩
  exact hb rfl

/-! ## The events of a walk -/

/-- The events of a walk over a string: the words and their characters, and the read of the zero word. -/
def walkEvents (a : Word) (ws : List Word) : List Event :=
  stringEvents a ws ++ [.rd (a + BitVec.ofNat 16 ws.length) 0#16]

theorem walkEvents_nil (a : Word) : walkEvents a [] = [.rd a 0#16] := by
  rw [walkEvents, List.length_nil, BitVec.add_zero]
  rfl

theorem walkEvents_cons (a w : Word) (ws : List Word) :
    walkEvents a (w :: ws) = .rd a w :: .out (charOf w) :: walkEvents (a + 1#16) ws := by
  rw [walkEvents, List.length_cons, add_ofNat_succ]
  rfl

theorem length_filter_isRead_walkEvents (a : Word) (ws : List Word) :
    ((walkEvents a ws).filter Event.isRead).length = ws.length + 1 := by
  induction ws generalizing a with
  | nil => rw [walkEvents_nil]; rfl
  | cons w ws ih => simp [walkEvents_cons, List.filter_cons, ih]

theorem length_filter_isOutput_walkEvents (a : Word) (ws : List Word) :
    ((walkEvents a ws).filter Event.isOutput).length = ws.length := by
  induction ws generalizing a with
  | nil => rw [walkEvents_nil]; rfl
  | cons w ws ih => simp [walkEvents_cons, List.filter_cons, ih]

theorem filter_isWrite_walkEvents (a : Word) (ws : List Word) : (walkEvents a ws).filter Event.isWrite = [] := by
  induction ws generalizing a with
  | nil => rw [walkEvents_nil]; rfl
  | cons w ws ih => simp [walkEvents_cons, ih]

theorem filter_isDiag_walkEvents (a : Word) (ws : List Word) : (walkEvents a ws).filter Event.isDiag = [] := by
  induction ws generalizing a with
  | nil => rw [walkEvents_nil]; rfl
  | cons w ws ih => simp [walkEvents_cons, ih]

/-- One word more before a walk: its read and its character come first. -/
theorem trace_of_walk_cons {a : Word} {s t : State} {ws : List Word}
    (h : t.trace = ((s.afterRead a).emit (.out (charOf (s.peek a)))).trace ++ walkEvents (a + 1#16) ws) :
    t.trace = s.trace ++ walkEvents a (s.peek a :: ws) := by
  rw [h, walkEvents_cons, trace_emit, trace_afterRead, List.append_assoc, List.append_assoc]
  rfl

/-- A walk that ends at once shows the read of the zero word. -/
theorem trace_afterRead_of_zero {a : Word} {s : State} (hz : s.peek a = 0#16) :
    (s.afterRead a).trace = s.trace ++ walkEvents a [] := by
  rw [trace_afterRead, hz, walkEvents_nil]

/-- A walk starts with the read of its first word, which is the zero word if the string is empty. -/
theorem walkEvents_eq_cons (a : Word) (ws : List Word) : ∃ evs, walkEvents a ws = .rd a (ws.headD 0#16) :: evs := by
  cases ws with
  | nil => exact ⟨_, walkEvents_nil a⟩
  | cons w ws => exact ⟨_, walkEvents_cons a w ws⟩

/-- What a walk shows, whatever it meets: a string of fewer words than it may read, which starts with the word at its
address. -/
theorem trace_of_putsWalk {n : Nat} {a : Word} {s t : State} (h : putsWalk n a s = some t) :
    ∃ ws, ws.length < n ∧ ws.headD 0#16 = s.peek a ∧ t.trace = s.trace ++ walkEvents a ws := by
  induction n generalizing a s with
  | zero => cases h
  | succ n ih =>
    by_cases hz : s.peek a = 0#16
    · rw [putsWalk_of_zero n a s hz, Option.some_inj] at h
      exact ⟨[], Nat.succ_pos n, hz.symm, h ▸ trace_afterRead_of_zero hz⟩
    · rw [putsWalk_of_ne_zero n a s hz] at h
      obtain ⟨ws, hlen, -, htrace⟩ := ih h
      exact ⟨s.peek a :: ws, Nat.succ_lt_succ hlen, rfl, trace_of_walk_cons htrace⟩

/-- What PUTS shows: a walk and the flush. -/
theorem trace_of_exec_puts {ign : BitVec 4} {s t : State} (h : exec (.puts ign) s = .next t) :
    ∃ ws, ws.length < Config.putsMaxReads ∧ ws.headD 0#16 = s.peek (s.reg Config.stringReg) ∧
      t.trace = s.trace ++ walkEvents (s.reg Config.stringReg) ws ++ [.flush] := by
  obtain ⟨u, hu, rfl⟩ := exec_puts_next h
  obtain ⟨ws, hlen, hhead, htrace⟩ := trace_of_putsWalk hu
  exact ⟨ws, hlen, hhead, by rw [trace_emit, htrace]⟩

/-! ## The walk over a string -/

/-- Memory holds the nonzero words `ws` from `a` on and a zero word after them. -/
def HoldsString (s : State) (a : Word) (ws : List Word) : Prop :=
  (∀ (k : Nat) (h : k < ws.length), ws[k] = s.peek (a + BitVec.ofNat 16 k) ∧ ws[k] ≠ 0#16) ∧
    s.peek (a + BitVec.ofNat 16 ws.length) = 0#16

/-- Fewer than 65536 words ahead no address comes back to where it started. -/
theorem add_ofNat_succ_ne_self (a : Word) {k : Nat} (hk : k + 1 < 65536) : a + BitVec.ofNat 16 (k + 1) ≠ a := by
  intro h
  have hzero := congrArg BitVec.toNat ((BitVec.add_right_eq_self).mp h)
  rw [BitVec.toNat_ofNat, Nat.mod_eq_of_lt hk] at hzero
  exact Nat.succ_ne_zero k hzero

/-- After the first word is read the rest of the string is still there, from the next address on. -/
theorem HoldsString.tail {s : State} {a w : Word} {ws : List Word} (h : HoldsString s a (w :: ws))
    (hlen : (w :: ws).length < 65536) (e : Event) : HoldsString ((s.afterRead a).emit e) (a + 1#16) ws := by
  obtain ⟨hwords, hend⟩ := h
  rw [List.length_cons] at hlen
  have hkept {k : Nat} (hk : k ≤ ws.length) :
      ((s.afterRead a).emit e).peek (a + 1#16 + BitVec.ofNat 16 k) = s.peek (a + BitVec.ofNat 16 (k + 1)) := by
    rw [peek_emit, ← add_ofNat_succ, peek_afterRead_of_ne s (add_ofNat_succ_ne_self a (by omega))]
  refine ⟨fun k hk => ?_, (hkept le_rfl).trans hend⟩
  rw [hkept hk.le]
  exact hwords (k + 1) (Nat.succ_lt_succ hk)

/-- Memory holds the first word of the string, which is not zero, at its address. -/
theorem HoldsString.head {s : State} {a w : Word} {ws : List Word} (h : HoldsString s a (w :: ws)) :
    s.peek a = w ∧ w ≠ 0#16 := by
  obtain ⟨hw, hne⟩ := h.1 0 (Nat.succ_pos _)
  rw [BitVec.add_zero] at hw
  exact ⟨hw.symm, hne⟩

/-- The keyboard-status word of `t` after reads of the words `a` to `a + n` of `s`: cleared if it is one of them. -/
def KbsrAfterReads (a : Word) (n : Nat) (s t : State) : Prop :=
  ((∃ k, k ≤ n ∧ a + BitVec.ofNat 16 k = Config.kbsrAddr) → t.peek Config.kbsrAddr = 0#16) ∧
    ((∀ k, k ≤ n → a + BitVec.ofNat 16 k ≠ Config.kbsrAddr) → t.peek Config.kbsrAddr = s.peek Config.kbsrAddr)

theorem kbsrAfterReads_zero (a : Word) (s : State) : KbsrAfterReads a 0 s (s.afterRead a) := by
  refine ⟨?_, fun h => peek_afterRead_of_ne s (BitVec.add_zero a ▸ h 0 le_rfl).symm⟩
  rintro ⟨k, hk, ha⟩
  obtain rfl := Nat.le_zero.mp hk
  rw [BitVec.add_zero] at ha
  rw [ha, peek_afterRead_kbsrAddr]

/-- One read more before the others: what it clears stays cleared, since reads and characters set nothing. -/
theorem KbsrAfterReads.cons {a : Word} {n : Nat} {s t : State} {e : Event}
    (h : KbsrAfterReads (a + 1#16) n ((s.afterRead a).emit e) t) (hframe : ReadFrame ((s.afterRead a).emit e) t) :
    KbsrAfterReads a (n + 1) s t := by
  obtain ⟨hcleared, hkept⟩ := h
  refine ⟨?_, fun haddr => ?_⟩
  · rintro ⟨k | k, hk, ha⟩
    · rw [BitVec.add_zero] at ha
      subst ha
      have hzero := peek_afterRead_kbsrAddr s
      exact hframe.kbsr.elim (fun h => h.trans hzero) id
    · rw [add_ofNat_succ] at ha
      exact hcleared ⟨k, Nat.le_of_succ_le_succ hk, ha⟩
  · have hne : Config.kbsrAddr ≠ a := (BitVec.add_zero a ▸ haddr 0 (Nat.zero_le _)).symm
    refine (hkept fun k hk => ?_).trans (peek_afterRead_of_ne s hne)
    rw [← add_ofNat_succ]
    exact haddr (k + 1) (Nat.succ_le_succ hk)

/-- The walk over a string shows its words and the zero word. -/
theorem putsWalk_of_holdsString {n : Nat} {a : Word} {s : State} {ws : List Word} (h : HoldsString s a ws)
    (hlen : ws.length < 65536) (hn : ws.length < n) :
    ∃ t, putsWalk n a s = some t ∧ t.trace = s.trace ++ walkEvents a ws ∧ KbsrAfterReads a ws.length s t := by
  induction ws generalizing n a s with
  | nil =>
    obtain ⟨n, rfl⟩ := Nat.exists_eq_add_one.mpr hn
    have hz : s.peek a = 0#16 := by
      rw [← BitVec.add_zero (x := a)]
      exact h.2
    exact ⟨_, putsWalk_of_zero n a s hz, trace_afterRead_of_zero hz, kbsrAfterReads_zero a s⟩
  | cons w ws ih =>
    obtain ⟨n, rfl⟩ := Nat.exists_eq_add_one.mpr (Nat.zero_lt_of_lt hn)
    obtain ⟨rfl, hw⟩ := h.head
    obtain ⟨t, hwalk, htrace, hkbsr⟩ :=
      ih (h.tail hlen (.out (charOf (s.peek a)))) (Nat.lt_of_succ_lt hlen) (Nat.lt_of_succ_lt_succ hn)
    exact ⟨t, (putsWalk_of_ne_zero n a s hw).trans hwalk, trace_of_walk_cons htrace,
      hkbsr.cons (readFrame_of_putsWalk hwalk)⟩

/-! ## The obligations -/

/-- Settles O33: the walk over the string, and the flush. -/
theorem putsEmitsTheStringThenFlushes : Obligations.PutsEmitsTheStringThenFlushes := by
  intro ign s ws hlen hwords hend
  have hmax : ws.length < Config.putsMaxReads := hlen.trans (by decide)
  obtain ⟨t, hwalk, htrace, hcleared, hkept⟩ := putsWalk_of_holdsString ⟨hwords, hend⟩ hlen hmax
  have hframe := readFrame_of_putsWalk hwalk
  refine ⟨t.emit .flush, exec_puts_of_walk hwalk, ?_, hframe.regs, hframe.cond, hframe.pc, hframe.running,
    hframe.words, hcleared, hkept⟩
  rw [trace_emit, htrace, walkEvents, ← List.append_assoc]
  exact List.append_assoc ..

/-- Settles O34: PUTS always answers, and its walk shows a string of fewer words than the reads it may make. -/
theorem putsAlwaysCompletesWithinItsBound : Obligations.PutsAlwaysCompletesWithinItsBound := by
  intro ign s
  obtain ⟨t, ht⟩ := exec_answers_next (.puts ign) s
  obtain ⟨ws, hlen, -, htrace⟩ := trace_of_exec_puts ht
  have hframe := readFrame_of_exec_puts ht
  refine ⟨t, _, ht, htrace, ?_, ?_, hframe.regs, hframe.cond, hframe.pc, hframe.running, hframe.words, hframe.kbsr⟩
  · rw [length_filter_isRead_walkEvents]
    exact hlen
  · rw [length_filter_isRead_walkEvents, length_filter_isOutput_walkEvents]

end Sys2Proof.Machine
end

section
/-! SUPPORT. The machine family: what any instruction does to registers, pc, memory and the trace, and rules of runs
(R11, R12, R46, R55, R157). -/

namespace Sys2Proof.Machine

/-! ## Registers (R11) -/

/-- Two register writes: the later one hides the earlier one of the same register, and commutes with one of another. -/
theorem setReg_setReg (s : State) (r d : Reg) (v w : Word) :
    (s.setReg r v).setReg d w = if some d = some r then s.setReg d w else (s.setReg d w).setReg r v := by
  refine State.ext_fields (x_eq_of_reg_eq fun q => ?_) ?_ ?_ ?_ ?_ ?_
  · by_cases hd : d = r
    · subst hd
      simp only [if_true, reg_setReg]
      split <;> rfl
    · simp only [Option.some.injEq, hd, if_false, reg_setReg]
      by_cases hq : q = d
      · simp only [hq, hd, if_true, if_false]
      · simp only [hq, if_false]
  all_goals split <;> rfl

theorem define_setReg (s : State) (r d : Reg) (v w : Word) :
    (s.setReg r v).define d w = if some d = some r then s.define d w else (s.define d w).setReg r v := by
  rw [State.define, setReg_setReg, apply_ite (State.setCond · (setcc w))]
  rfl

theorem link_setPc_setReg (s : State) (r : Reg) (v target : Word) :
    (s.setReg r v).link.setPc target =
      if some Config.linkReg = some r then s.link.setPc target else (s.link.setPc target).setReg r v := by
  rw [State.link, setReg_setReg, apply_ite (State.setPc · target)]
  rfl

/-- The register an instruction writes is the one of the table, if any. -/
theorem reg_of_exec {i : Instr} {s t : State} {r : Reg} (h : exec i s = .next t) (hr : i.dest ≠ some r) :
    t.reg r = s.reg r := by
  cases i with
  | puts ign => exact (readFrame_of_exec_puts h).regs r
  | br mask off9 =>
    obtain ⟨target, ht⟩ := exec_br_eq_setPc mask off9 s
    cases h.symm.trans ht
    rfl
  | addReg dr | addImm dr | andReg dr | andImm dr | notReg dr | ld dr | ldi dr | ldr dr | lea dr =>
    cases h
    exact (reg_define _ dr _ r).trans (if_neg fun e => hr (congrArg some e.symm))
  | jsr | jsrr =>
    cases h
    exact (reg_link s r).trans (if_neg fun e => hr (congrArg some e.symm))
  | st | str | sti | jmp | halt | rti | res | getc | out | inp | putsp | trap => cases h; rfl

/-- The walk of PUTS takes no notice of a register. -/
theorem putsWalk_setReg (n : Nat) (a : Word) (s : State) (r : Reg) (v : Word) :
    putsWalk n a (s.setReg r v) = (putsWalk n a s).map (State.setReg · r v) :=
  putsWalk_map (f := (State.setReg · r v)) (fun _ _ => rfl) (fun _ _ => rfl) (fun _ _ => rfl) n a s

/-- The base-plus-offset address depends on the base register alone. -/
theorem basePlus_congr {s t : State} {base : Reg} (off6 : BitVec 6) (h : t.reg base = s.reg base) :
    t.basePlus base off6 = s.basePlus base off6 := congrArg (· + sext off6) h

/-- A register the table does not list as read passes through an instruction, unless it is the one written. -/
theorem exec_setReg {i : Instr} {s t : State} {r : Reg} (v : Word) (h : exec i s = .next t) (hr : r ∉ i.regsRead) :
    exec i (s.setReg r v) = .next (if i.dest = some r then t else t.setReg r v) := by
  have hread {q : Reg} (hq : q ∈ i.regsRead) : (s.setReg r v).reg q = s.reg q := by
    rw [reg_setReg, if_neg]
    rintro rfl
    exact hr hq
  cases i with
  | addReg dr sr1 ign sr2 | andReg dr sr1 ign sr2 =>
    have hsr1 := hread (q := sr1) (.head _)
    have hsr2 := hread (q := sr2) (.tail _ (.head _))
    cases h
    simp only [exec_addReg, exec_andReg, hsr1, hsr2, define_setReg]
    rfl
  | addImm dr sr imm5 | andImm dr sr imm5 | notReg dr sr ign =>
    have hsr := hread (q := sr) (.head _)
    cases h
    simp only [exec_addImm, exec_andImm, exec_notReg, hsr, define_setReg]
    rfl
  | lea dr off9 =>
    cases h
    exact congrArg _ (define_setReg s r dr v _)
  | ld dr off9 =>
    cases h
    exact congrArg _ (define_setReg (s.afterRead (s.pcRelative off9)) r dr v _)
  | ldi dr off9 =>
    cases h
    exact congrArg _
      (define_setReg ((s.afterRead (s.pcRelative off9)).afterRead (s.peek (s.pcRelative off9))) r dr v _)
  | ldr dr base off6 =>
    have hbase := basePlus_congr off6 (hread (q := base) (.head _))
    cases h
    rw [exec_ldr, hbase]
    exact congrArg _ (define_setReg (s.afterRead (s.basePlus base off6)) r dr v _)
  | st sr off9 | sti sr off9 =>
    have hsr := hread (q := sr) (.head _)
    cases h
    simp only [exec_st, exec_sti, hsr]
    rfl
  | str sr base off6 =>
    have hbase := basePlus_congr off6 (hread (q := base) (.head _))
    have hsr := hread (q := sr) (.tail _ (.head _))
    cases h
    rw [exec_str, hbase, hsr]
    rfl
  | jmp hi base lo =>
    have hbase := hread (q := base) (.head _)
    cases h
    rw [exec_jmp, hbase]
    rfl
  | jsr off11 =>
    cases h
    exact congrArg _ (link_setPc_setReg s r v _)
  | jsrr hi base lo =>
    have hbase : (s.setReg r v).link.reg base = s.link.reg base := by
      rw [reg_link, reg_link, hread (.head _), pc_setReg]
    cases h
    rw [exec_jsrr, hbase]
    exact congrArg _ (link_setPc_setReg s r v _)
  | puts ign =>
    obtain ⟨u, hu, rfl⟩ := exec_puts_next h
    have hwalk : putsWalk Config.putsMaxReads ((s.setReg r v).reg Config.stringReg) (s.setReg r v) =
        some (u.setReg r v) := by
      rw [hread (.head _), putsWalk_setReg, hu, Option.map_some]
    exact exec_puts_of_walk hwalk
  | br mask off9 =>
    cases h.symm.trans (exec_br_setPc mask off9 s)
    exact exec_br_setPc mask off9 (s.setReg r v)
  | halt | rti | res | getc | out | inp | putsp | trap =>
    cases h
    rfl

/-! ## pc (R12) -/

/-- The fetch increment stands unless the instruction is a control transfer. -/
theorem pc_of_exec {i : Instr} {s t : State} (h : exec i s = .next t) (hi : i.writesPc = false) : t.pc = s.pc := by
  cases i with
  | puts ign => exact (readFrame_of_exec_puts h).pc
  | br | jmp | jsr | jsrr => cases hi
  | _ => cases h; rfl

/-! ## Memory (R46) -/

/-- An instruction that stores is reads and then the one write of the table. -/
theorem memWrite_of_exec {i : Instr} {s t : State} {a v : Word} (h : exec i s = .next t)
    (hst : i.store s = some (a, v)) : ∃ u, ReadFrame s u ∧ t = u.memWrite a v := by
  cases i with
  | st | str => cases h; cases hst; exact ⟨s, .refl s, rfl⟩
  | sti => cases h; cases hst; exact ⟨_, (ReadFrame.refl s).afterRead _, rfl⟩
  | _ => cases hst

/-- Memory after an instruction that stores nothing is memory after reads. -/
theorem sameMem_of_exec {i : Instr} {s t : State} (h : exec i s = .next t) (hst : i.store s = none) :
    ∃ u, ReadFrame s u ∧ SameMem u t := by
  cases i with
  | puts ign => exact ⟨t, readFrame_of_exec_puts h, fun _ => rfl⟩
  | br mask off9 =>
    cases h.symm.trans (exec_br_setPc mask off9 s)
    exact ⟨s, .refl s, fun _ => rfl⟩
  | ld | ldr => cases h; exact ⟨_, (ReadFrame.refl s).afterRead _, fun _ => rfl⟩
  | ldi => cases h; exact ⟨_, ((ReadFrame.refl s).afterRead _).afterRead _, fun _ => rfl⟩
  | st | str | sti => cases hst
  | _ => cases h; exact ⟨s, .refl s, fun _ => rfl⟩

/-! ## Events (R157, R128, R46) -/

/-- The diagnostic event of an instruction, if it has one, with the instruction word. -/
def diagEvents (i : Instr) : List Event := (i.diagKind.map (.diag · (encode i))).toList

/-- The write event of an instruction, if it stores. -/
def storeEvents (i : Instr) (s : State) : List Event := ((i.store s).map fun p => .wr p.1 p.2).toList

/-- Among the events an instruction appends, the diagnostic ones and the writes are those of the tables, and only PUTS
has output. -/
theorem events_of_exec {i : Instr} {s t : State} (h : exec i s = .next t) :
    ∃ evs, t.trace = s.trace ++ evs ∧ evs.filter Event.isDiag = diagEvents i ∧
      evs.filter Event.isWrite = storeEvents i s ∧ (i.isPuts = false → evs.filter Event.isOutput = []) := by
  cases i with
  | puts ign =>
    obtain ⟨ws, -, -, htrace⟩ := trace_of_exec_puts h
    refine ⟨walkEvents (s.reg Config.stringReg) ws ++ [.flush], by rw [htrace, List.append_assoc], ?_, ?_, nofun⟩
    · rw [List.filter_append, filter_isDiag_walkEvents]
      rfl
    · rw [List.filter_append, filter_isWrite_walkEvents]
      rfl
  | br mask off9 =>
    cases h.symm.trans (exec_br_setPc mask off9 s)
    exact ⟨[], (List.append_nil _).symm, rfl, rfl, fun _ => rfl⟩
  | addReg | addImm | andReg | andImm | notReg | lea | jsr | jsrr | jmp | halt =>
    cases h
    exact ⟨[], (List.append_nil _).symm, rfl, rfl, fun _ => rfl⟩
  | ld | ldr | st | str | rti | res | getc | out | inp | putsp | trap =>
    cases h
    exact ⟨[_], rfl, rfl, rfl, fun _ => rfl⟩
  | ldi | sti =>
    cases h
    exact ⟨[_, _], List.append_assoc .., rfl, rfl, fun _ => rfl⟩

/-- Ignored bits are seen by a diagnostic event alone. -/
theorem exec_canonical {i : Instr} {s t : State} (h : exec i s = .next t) :
    ∃ u, exec i.canonical s = .next u ∧ u.arch = t.arch ∧ (i.diagKind = none → u = t) := by
  cases i with
  | rti | res | getc | out | inp | putsp | trap =>
    cases h
    exact ⟨_, rfl, rfl, nofun⟩
  | _ => exact ⟨t, h, rfl, fun _ => rfl⟩

/-! ## The step and runs -/

/-- A step appends the same events to whatever trace it starts with. -/
theorem step_withTrace {s t : State} (h : step s = .next t) :
    ∃ evs, t.trace = s.trace ++ evs ∧ ∀ tr, step (s.withTrace tr) = .next (t.withTrace (tr ++ evs)) := by
  cases hrun : s.running with
  | false =>
    cases h.symm.trans (step_of_halted hrun)
    refine ⟨[], (List.append_nil _).symm, fun tr => ?_⟩
    rw [step_of_halted (s := s.withTrace tr) hrun, List.append_nil]
  | true =>
    rw [step_of_running hrun] at h
    obtain ⟨evs, htrace, hexec⟩ := exec_withTrace h
    refine ⟨.rd s.pc (s.peek s.pc) :: evs, ?_, fun tr => ?_⟩
    · rw [htrace, trace_setPc, trace_afterRead, ← List.append_cons]
    · rw [step_of_running (s := s.withTrace tr) hrun, List.append_cons]
      exact hexec (tr ++ [.rd s.pc (s.peek s.pc)])

/-! ## The obligations -/

/-- Settles O36: the writes and reads of the table, the link value, and the first event of PUTS. -/
theorem instructionsUseOnlyTheRegistersOfTheTable :
    Obligations.InstructionsUseOnlyTheRegistersOfTheTable := by
  refine ⟨fun i s t h => ⟨fun r hr => reg_of_exec h hr, fun r v hr => exec_setReg v h hr⟩, ?_, ?_, ?_, reg_reset⟩
  · intro off11 s t h
    cases h
    exact (link_setPc_frame s _).1
  · intro hi base lo s t h
    cases h
    exact (link_setPc_frame s _).1
  · intro ign s t h
    obtain ⟨ws, -, hhead, htrace⟩ := trace_of_exec_puts h
    obtain ⟨evs, hevs⟩ := walkEvents_eq_cons (s.reg Config.stringReg) ws
    rw [hevs, hhead, List.append_assoc] at htrace
    exact ⟨_, htrace⟩

/-- Settles O37: only the four control transfers of the table write pc. -/
theorem onlyControlTransfersWritePc : Obligations.OnlyControlTransfersWritePc :=
  fun _ _ _ hi h => pc_of_exec h hi

/-- Settles O39: the one write, over memory as reads left it; and the write events of the table. -/
theorem instructionsWriteOnlyTheirOneStore : Obligations.InstructionsWriteOnlyTheirOneStore := by
  intro i s t h
  obtain ⟨evs, htrace, -, hwrites, -⟩ := events_of_exec h
  cases hst : i.store s with
  | none =>
    obtain ⟨u, hu, hmem⟩ := sameMem_of_exec h hst
    refine ⟨nofun, fun _ b hb => (hmem b).trans (hu.words b hb), fun _ => ?_, evs, htrace, nofun, fun _ => ?_⟩
    · exact (hmem Config.kbsrAddr).symm ▸ hu.kbsr
    · rw [hwrites, storeEvents, hst]
      rfl
  | some p =>
    obtain ⟨a, v⟩ := p
    obtain ⟨u, hu, rfl⟩ := memWrite_of_exec h hst
    refine ⟨?_, nofun, fun hne => ?_, evs, htrace, ?_, nofun⟩
    · rintro _ _ ⟨⟩
      exact ⟨peek_memWrite_self u a v, fun b hb hk => (peek_memWrite_of_ne u a v hb).trans (hu.words b hk)⟩
    · have ha : Config.kbsrAddr ≠ a := by
        rintro rfl
        exact hne v rfl
      rw [peek_memWrite_of_ne u a v ha]
      exact hu.kbsr
    · rintro _ _ ⟨⟩
      rw [hwrites, storeEvents, hst]
      rfl

/-- Settles O40: the diagnostic events of the table, and output from PUTS alone. -/
theorem eventsComeFromTheirInstructionsOnly : Obligations.EventsComeFromTheirInstructionsOnly := by
  intro i s t h
  obtain ⟨evs, htrace, hdiag, -, hout⟩ := events_of_exec h
  refine ⟨evs, htrace, fun k hk => ?_, fun hk => ?_, hout⟩
  · rw [hdiag, diagEvents, hk]
    rfl
  · rw [hdiag, diagEvents, hk]
    rfl

/-- Settles O41: canonical ignored bits are a change of ignored bits. -/
theorem ignoredBitsHaveNoEffect : Obligations.IgnoredBitsHaveNoEffect :=
  fun _ _ _ => exec_canonical

/-- Settles O42: the store is the last thing the instruction does, and the fetch reads the stored word. -/
theorem fetchSeesTheLatestStore : Obligations.FetchSeesTheLatestStore := by
  intro i s t a v hst h
  obtain ⟨u, -, rfl⟩ := memWrite_of_exec h hst
  exact peek_memWrite_self u a v

/-- Settles O47: the events of the fetch and of the instruction. -/
theorem traceIsNeverRead : Obligations.TraceIsNeverRead := fun _ _ => step_withTrace

/-- Settles O15, by induction on the number of steps. -/
theorem haltedMachineStaysAsItIs : Obligations.HaltedMachineStaysAsItIs := by
  intro s n hrun
  induction n with
  | zero => rfl
  | succ n ih => rw [run_succ n (step_of_halted hrun), ih]

/-- Settles O44, by induction on the number of steps: each of them answers. -/
theorem everyRunIsSafe : Obligations.EveryRunIsSafe := by
  intro s n
  induction n generalizing s with
  | zero => exact ⟨s, rfl⟩
  | succ n ih =>
    obtain ⟨t, ht, -⟩ := stepAlwaysAnswersANextState s
    rw [run_succ n ht]
    exact ih t

end Sys2Proof.Machine
end

section
/-! SUPPORT. The host family: the image loader, the host's requests and the ports (R5, R157, R170 to R186). -/

namespace Sys2Proof.Machine

/-! ## Image files (R181, R186) -/

theorem toNat_bigEndian (hi lo : Byte) : (bigEndian hi lo).toNat = hi.toNat * 256 + lo.toNat := by
  rw [bigEndian, BitVec.toNat_append, ← Nat.shiftLeft_add_eq_or_of_lt lo.isLt, Nat.shiftLeft_eq]

theorem length_imageWords (data : List Byte) : (imageWords data).length = data.length / 2 := by
  fun_induction imageWords data with
  | case1 hi lo rest ih =>
    rw [List.length_cons, ih]
    exact (Nat.add_div_right rest.length Nat.two_pos).symm
  | case2 b => exact (Nat.div_eq_of_lt (by simp)).symm
  | case3 => rfl

/-- Word k of an image is bytes 2k and 2k + 1, the first the higher. -/
theorem getElem_imageWords (data : List Byte) (k : Nat) (h : k < (imageWords data).length) :
    (imageWords data)[k] = bigEndian (data.getD (2 * k) 0) (data.getD (2 * k + 1) 0) := by
  fun_induction imageWords data generalizing k with
  | case1 hi lo rest ih =>
    cases k with
    | zero => rfl
    | succ k => exact ih k (Nat.lt_of_succ_lt_succ h)
  | case2 => cases h
  | case3 => cases h

/-- A last byte after complete pairs makes no word. -/
theorem imageWords_append_single (data : List Byte) (last : Byte) (h : data.length % 2 = 0) :
    imageWords (data ++ [last]) = imageWords data := by
  fun_induction imageWords data with
  | case1 hi lo rest ih =>
    rw [List.length_cons, List.length_cons, Nat.add_assoc, Nat.add_mod_right] at h
    exact congrArg (bigEndian hi lo :: ·) (ih h)
  | case2 => cases h
  | case3 => rfl

/-! ## Placing words (R182, R183) -/

/-- An address outside the image keeps its word. -/
theorem read_placeWords_of_outside (a : Nat) (ws : List Word) (m : Memory) {b : Nat}
    (h : b < a ∨ a + ws.length ≤ b) : (placeWords a ws m).read b = m.read b := by
  induction ws generalizing a m with
  | nil => rfl
  | cons w ws ih =>
    rw [List.length_cons] at h
    rw [placeWords]
    split
    · rw [ih (a + 1) (m.write a w) (by omega), Memory.read_write, if_neg (by omega)]
    · rfl

/-- Word k of the image is k addresses above its origin, if that is an address. -/
theorem read_placeWords_of_inside (a : Nat) (ws : List Word) (m : Memory) {k : Nat} (hk : k < ws.length)
    (hb : a + k < Config.memWords) : (placeWords a ws m).read (a + k) = ws[k] := by
  induction ws generalizing a m k with
  | nil => cases hk
  | cons w ws ih =>
    rw [placeWords, if_pos (by omega)]
    cases k with
    | zero =>
      rw [read_placeWords_of_outside (a + 1) ws _ (.inl (by omega)), Memory.read_write, if_pos (Nat.add_zero a)]
      rfl
    | succ k =>
      rw [← Nat.add_assoc, Nat.add_right_comm]
      exact ih (a + 1) (m.write a w) (Nat.lt_of_succ_lt_succ hk) (by omega)

/-! ## Boot (R180) -/

/-- Booting a file of at least two bytes is placing its words in the empty memory of the reset state. -/
theorem boot_of_two_bytes (hi lo : Byte) (data : List Byte) :
    boot (some (hi :: lo :: data)) =
      ({ State.reset with mem := placeWords (bigEndian hi lo).toNat (imageWords data) [] },
        ⟨true, decide (Config.memWords < (bigEndian hi lo).toNat + (imageWords data).length)⟩) := rfl

/-! ## The obligations -/

/-- Settles O48: the words of the file are placed in the empty memory, and nothing else changes. -/
theorem imageIsPlacedBigEndianAtItsOrigin : Obligations.ImageIsPlacedBigEndianAtItsOrigin := by
  rintro hi lo data origin n horigin hn
  rw [boot_of_two_bytes, toNat_bigEndian, ← horigin]
  refine ⟨rfl, ?_, fun a k ha hk => ?_, fun a ha => ?_, fun _ => rfl, rfl, rfl, rfl, rfl⟩
  · rw [decide_eq_true_iff, length_imageWords, hn]
  · have hlen : k < (imageWords data).length := by rwa [length_imageWords, ← hn]
    have hread := read_placeWords_of_inside origin (imageWords data) [] hlen (ha ▸ toNat_lt_memWords a)
    rw [← ha, getElem_imageWords data k hlen] at hread
    rw [← toNat_bigEndian, ← hread]
    rfl
  · rw [hn, ← length_imageWords] at ha
    exact read_placeWords_of_outside origin (imageWords data) [] ha

/-- Settles O50: a file of fewer than two bytes has no origin, and an unpaired last byte makes no word. -/
theorem loaderCornerCases : Obligations.LoaderCornerCases := by
  refine ⟨fun bytes h => ?_, fun hi lo last data h => ?_⟩
  · match bytes with
    | [] => rfl
    | [_] => rfl
    | _ :: _ :: _ => exact absurd h (by simp)
  · rw [List.cons_append, List.cons_append, boot_of_two_bytes, boot_of_two_bytes,
      imageWords_append_single data last h]

/-- Settles O51, by the host's three requests. -/
theorem resetWinsOverAStepRequest : Obligations.ResetWinsOverAStepRequest :=
  fun _ => ⟨fun _ => rfl, rfl, rfl⟩

/-- Settles O52, event by event. -/
theorem portStrobesExclude : Obligations.PortStrobesExclude := by
  refine ⟨fun e => ?_, fun w => ⟨rfl, rfl, rfl⟩⟩
  cases e <;> exact ⟨rfl, rfl, rfl, rfl, rfl⟩

end Sys2Proof.Machine
end
